-- ==== Sys2Proof/Word.lean ====
section
/-! DEFINITION. The word types of the IE64 (spec/10_state.md R30, R35; spec/30_encoding.md R102): what the
spec treats as bits, each at its own width. -/

namespace Sys2Proof

/-- A general register, the program counter, a timer value: 64 bits (R30, R35, R44). -/
abbrev Word := BitVec 64

/-- One byte of memory or of an instruction (R60, R101). -/
abbrev Byte := BitVec 8

/-- A data or stack address: 32 bits (R66, R67). -/
abbrev Addr := BitVec 32

/-- A fetch address: 25 bits (R68). -/
abbrev FetchAddr := BitVec 25

/-- The imm32 field (R102, R107). -/
abbrev Imm := BitVec 32

/-- A register field: the 5-bit index of R0..R31 (R30, R102). -/
abbrev RegId := BitVec 5

end Sys2Proof
end

