-- ==== Sys2Proof/Syntax.lean ====
section
/-! DEFINITION. The instructions of the IE64: one constructor per row of spec/opcode_table.json (R110), each
with the fields its form uses (R109) and no field it ignores (R113). -/

namespace Sys2Proof

/-- The size codes `.B` `.W` `.L` `.Q` = 0, 1, 2, 3 (R105). -/
inductive Size where
  | b | w | l | q
deriving DecidableEq, Repr

/-- The third operand of a three-operand instruction: register Rt when X = 0, imm32 when X = 1 (R106). -/
inductive Operand3 where
  | reg (rt : RegId)
  | imm (value : Imm)
deriving DecidableEq, Repr

/-- The source of MOVE: register Rs when X = 0, imm32 when X = 1 (R106, R140). -/
inductive MoveSource where
  | reg (rs : RegId)
  | imm (value : Imm)
deriving DecidableEq, Repr

/-- The 40 instructions (R110). -/
inductive Instr where
  -- data movement, R140 to R143
  | move (size : Size) (rd : RegId) (src : MoveSource)
  | movt (rd : RegId) (imm : Imm)
  | moveq (rd : RegId) (imm : Imm)
  | lea (rd rs : RegId) (disp : Imm)
  -- memory access, R151 and R152
  | load (size : Size) (rd rs : RegId) (disp : Imm)
  | store (size : Size) (rd rs : RegId) (disp : Imm)
  -- arithmetic, R161 to R168
  | add (size : Size) (rd rs : RegId) (op : Operand3)
  | sub (size : Size) (rd rs : RegId) (op : Operand3)
  | mulu (size : Size) (rd rs : RegId) (op : Operand3)
  | muls (size : Size) (rd rs : RegId) (op : Operand3)
  | divu (size : Size) (rd rs : RegId) (op : Operand3)
  | divs (size : Size) (rd rs : RegId) (op : Operand3)
  | mod (size : Size) (rd rs : RegId) (op : Operand3)
  | neg (size : Size) (rd rs : RegId)
  -- logical, R181 to R184
  | and (size : Size) (rd rs : RegId) (op : Operand3)
  | or (size : Size) (rd rs : RegId) (op : Operand3)
  | eor (size : Size) (rd rs : RegId) (op : Operand3)
  | not (size : Size) (rd rs : RegId)
  -- shift, R191 to R193
  | lsl (size : Size) (rd rs : RegId) (op : Operand3)
  | lsr (size : Size) (rd rs : RegId) (op : Operand3)
  | asr (size : Size) (rd rs : RegId) (op : Operand3)
  -- branch, R202 to R210
  | bra (off : Imm)
  | beq (rs rt : RegId) (off : Imm)
  | bne (rs rt : RegId) (off : Imm)
  | blt (rs rt : RegId) (off : Imm)
  | bge (rs rt : RegId) (off : Imm)
  | bgt (rs rt : RegId) (off : Imm)
  | ble (rs rt : RegId) (off : Imm)
  | bhi (rs rt : RegId) (off : Imm)
  | bls (rs rt : RegId) (off : Imm)
  -- subroutine and stack, R221 to R224
  | jsr (off : Imm)
  | rts
  | push (rs : RegId)
  | pop (rd : RegId)
  -- system, R230 to R235
  | nop
  | halt
  | sei
  | cli
  | rti
  | wait (usec : Imm)
deriving DecidableEq, Repr

end Sys2Proof
end

