-- ==== Sys2Proof/WellFormed.lean ====
section
/-! DEFINITION. Which instruction words are well formed: the opcode byte is assigned (R110, R112) and the reserved
bits are zero, as software must write them (R102, R113, R334 (c)). A term of `Instr` needs no check of its own:
every field is bounded by its type (a 5-bit register, a 2-bit size, a 32-bit immediate), and no size code and no
combination of fields is reserved (R105, R109). The hardware ignores the reserved bits: the decoder does not call
these checks. -/

namespace Sys2Proof

/-- The ranges of assigned opcodes, first and last (R111). -/
def opcodeRanges : List (Nat × Nat) :=
  [(0x01, 0x04), (0x10, 0x11), (0x20, 0x27), (0x30, 0x36), (0x40, 0x48), (0x50, 0x53), (0xE0, 0xE5)]

/-- The opcode is one of the 40 of R110; the other 216 are illegal (R112). -/
def opcodeAssigned (op : Byte) : Bool :=
  opcodeRanges.any fun r => decide (r.1 ≤ op.toNat) && decide (op.toNat ≤ r.2)

/-- Bits [2:0] of byte 2, W[18:16], are zero: "Reserved (must be 0)" (R102). -/
def reservedByte2Zero (w : Word) : Bool :=
  w.extractLsb' 16 3 == 0#3

/-- Bits [2:0] of byte 3, W[26:24], are zero: "Reserved (must be 0)" (R102). -/
def reservedByte3Zero (w : Word) : Bool :=
  w.extractLsb' 24 3 == 0#3

/-- An instruction word as software must write it. -/
def wordWellFormed (w : Word) : Bool :=
  opcodeAssigned (w.extractLsb' 0 8) && reservedByte2Zero w && reservedByte3Zero w

/-- The forms: which fields an instruction uses (R109). -/
inductive Form where
  | mov | di | dsi | mem | alu3 | alu2 | rel | bcc | s | d | none | imm
deriving DecidableEq, Repr

/-- The form of each opcode; `none` for the 216 unassigned ones (R110, R112). -/
def formOf (op : Byte) : Option Form :=
  match op.toNat with
  | 0x01 => some .mov
  | 0x02 | 0x03 => some .di
  | 0x04 => some .dsi
  | 0x10 | 0x11 => some .mem
  | 0x20 | 0x21 | 0x22 | 0x23 | 0x24 | 0x25 | 0x26 => some .alu3
  | 0x27 | 0x33 => some .alu2
  | 0x30 | 0x31 | 0x32 | 0x34 | 0x35 | 0x36 => some .alu3
  | 0x40 | 0x50 => some .rel
  | 0x41 | 0x42 | 0x43 | 0x44 | 0x45 | 0x46 | 0x47 | 0x48 => some .bcc
  | 0x52 => some .s
  | 0x53 => some .d
  | 0x51 | 0xE0 | 0xE1 | 0xE2 | 0xE3 | 0xE4 => some .none
  | 0xE5 => some .imm
  | _ => Option.none

/-- The bits of W a form uses besides the opcode byte: the "fields used" column of R109, for each X bit. -/
def Form.usedBits : Form → BitVec 1 → Word
  | .mov, x => if x = 0#1 then 0x0000000000F8FF00#64 else 0xFFFFFFFF0000FF00#64
  | .di, _ => 0xFFFFFFFF0000F800#64
  | .dsi, _ => 0xFFFFFFFF00F8F800#64
  | .mem, _ => 0xFFFFFFFF00F8FE00#64
  | .alu3, x => if x = 0#1 then 0x00000000F8F8FF00#64 else 0xFFFFFFFF00F8FF00#64
  | .alu2, _ => 0x0000000000F8FE00#64
  | .rel, _ => 0xFFFFFFFF00000000#64
  | .bcc, _ => 0xFFFFFFFFF8F80000#64
  | .s, _ => 0x0000000000F80000#64
  | .d, _ => 0x000000000000F800#64
  | .none, _ => 0#64
  | .imm, _ => 0xFFFFFFFF00000000#64

/-- The bits of an instruction word that take part in its execution: the opcode byte, and the fields its form uses
(R109); every other bit is ignored (R113). -/
def usedBits (w : Word) : Word :=
  match formOf (w.extractLsb' 0 8) with
  | some f => 0xFF#64 ||| f.usedBits (w.extractLsb' 8 1)
  | Option.none => 0xFF#64

end Sys2Proof
end

