-- ==== Sys2Proof/Decode.lean ====
section
/-! DEFINITION. Decoding and encoding, from the tables of spec/30_encoding.md (R101 to R104, R109, R110, R115).
`decode` is total on any list of bytes and rejects by name; `encode` writes the canonical encoding (R115). -/

namespace Sys2Proof

/-- The word W of an instruction: byte 0 is W[7:0] (R102). Little-endian in general (R60). -/
def wordOfBytes : List Byte → Word
  | [] => 0#64
  | b :: bs => (wordOfBytes bs <<< 8) ||| b.setWidth 64

/-- The first `n` bytes of a value in address order, least significant first (R60). -/
def bytesOfWord (v : Word) : Nat → List Byte
  | 0 => []
  | n + 1 => v.setWidth 8 :: bytesOfWord (v >>> 8) n

/-- The fields of an instruction word (R102). -/
structure Fields where
  opcode : Byte
  rd : RegId
  size : BitVec 2
  xbit : BitVec 1
  rs : RegId
  rt : RegId
  imm : Imm
deriving DecidableEq, Repr

/-- Field extraction (R102, R103). The low three bits of bytes 2 and 3 take no part. -/
def fieldsOf (w : Word) : Fields where
  opcode := w.extractLsb' 0 8
  rd := w.extractLsb' 11 5
  size := w.extractLsb' 9 2
  xbit := w.extractLsb' 8 1
  rs := w.extractLsb' 19 5
  rt := w.extractLsb' 27 5
  imm := w.extractLsb' 32 32

/-- The word of a tuple of fields, the reserved bits zero (R104). -/
def wordOfFields (f : Fields) : Word :=
  f.imm ++ (f.rt ++ 0#3) ++ (f.rs ++ 0#3) ++ (f.rd ++ f.size ++ f.xbit) ++ f.opcode

/-- The size codes (R105). -/
def sizeOfCode (c : BitVec 2) : Size :=
  if c = 0#2 then .b else if c = 1#2 then .w else if c = 2#2 then .l else .q

/-- The code of a size (R105). -/
def codeOfSize : Size → BitVec 2
  | .b => 0#2
  | .w => 1#2
  | .l => 2#2
  | .q => 3#2

/-- The third operand: X = 0 takes Rt, X = 1 takes imm32 (R106). -/
def operand3Of (f : Fields) : Operand3 :=
  if f.xbit = 0#1 then .reg f.rt else .imm f.imm

/-- MOVE's source: X = 0 takes Rs, X = 1 takes imm32 (R140). -/
def moveSourceOf (f : Fields) : MoveSource :=
  if f.xbit = 0#1 then .reg f.rs else .imm f.imm

/-- The instruction of a tuple of fields: the opcode alone selects it (R109, R110), the fields its form does not
use are ignored (R113), and every opcode outside the map is refused (R112). -/
def instrOfFields (f : Fields) : Option Instr :=
  match f.opcode.toNat with
  | 0x01 => some (.move (sizeOfCode f.size) f.rd (moveSourceOf f))
  | 0x02 => some (.movt f.rd f.imm)
  | 0x03 => some (.moveq f.rd f.imm)
  | 0x04 => some (.lea f.rd f.rs f.imm)
  | 0x10 => some (.load (sizeOfCode f.size) f.rd f.rs f.imm)
  | 0x11 => some (.store (sizeOfCode f.size) f.rd f.rs f.imm)
  | 0x20 => some (.add (sizeOfCode f.size) f.rd f.rs (operand3Of f))
  | 0x21 => some (.sub (sizeOfCode f.size) f.rd f.rs (operand3Of f))
  | 0x22 => some (.mulu (sizeOfCode f.size) f.rd f.rs (operand3Of f))
  | 0x23 => some (.muls (sizeOfCode f.size) f.rd f.rs (operand3Of f))
  | 0x24 => some (.divu (sizeOfCode f.size) f.rd f.rs (operand3Of f))
  | 0x25 => some (.divs (sizeOfCode f.size) f.rd f.rs (operand3Of f))
  | 0x26 => some (.mod (sizeOfCode f.size) f.rd f.rs (operand3Of f))
  | 0x27 => some (.neg (sizeOfCode f.size) f.rd f.rs)
  | 0x30 => some (.and (sizeOfCode f.size) f.rd f.rs (operand3Of f))
  | 0x31 => some (.or (sizeOfCode f.size) f.rd f.rs (operand3Of f))
  | 0x32 => some (.eor (sizeOfCode f.size) f.rd f.rs (operand3Of f))
  | 0x33 => some (.not (sizeOfCode f.size) f.rd f.rs)
  | 0x34 => some (.lsl (sizeOfCode f.size) f.rd f.rs (operand3Of f))
  | 0x35 => some (.lsr (sizeOfCode f.size) f.rd f.rs (operand3Of f))
  | 0x36 => some (.asr (sizeOfCode f.size) f.rd f.rs (operand3Of f))
  | 0x40 => some (.bra f.imm)
  | 0x41 => some (.beq f.rs f.rt f.imm)
  | 0x42 => some (.bne f.rs f.rt f.imm)
  | 0x43 => some (.blt f.rs f.rt f.imm)
  | 0x44 => some (.bge f.rs f.rt f.imm)
  | 0x45 => some (.bgt f.rs f.rt f.imm)
  | 0x46 => some (.ble f.rs f.rt f.imm)
  | 0x47 => some (.bhi f.rs f.rt f.imm)
  | 0x48 => some (.bls f.rs f.rt f.imm)
  | 0x50 => some (.jsr f.imm)
  | 0x51 => some .rts
  | 0x52 => some (.push f.rs)
  | 0x53 => some (.pop f.rd)
  | 0xE0 => some .nop
  | 0xE1 => some .halt
  | 0xE2 => some .sei
  | 0xE3 => some .cli
  | 0xE4 => some .rti
  | 0xE5 => some (.wait f.imm)
  | _ => none

/-- The instruction of a word W, if its opcode byte is assigned (R103, R109, R112). -/
def decodeWord (w : Word) : Option Instr :=
  instrOfFields (fieldsOf w)

/-- What decoding a list of bytes answers. -/
inductive DecodeResult where
  /-- the instruction in the first 8 bytes -/
  | ok (i : Instr)
  /-- byte 0 is none of the 40 opcodes (R112) -/
  | invalidOpcode (op : Byte)
  /-- fewer than 8 bytes: every instruction is exactly 8 bytes (R100) -/
  | tooFewBytes (n : Nat)
deriving DecidableEq, Repr

/-- Decode the first 8 bytes, byte 0 first (R100, R101). -/
def decode (bs : List Byte) : DecodeResult :=
  if bs.length < 8 then .tooFewBytes bs.length
  else
    match decodeWord (wordOfBytes (bs.take 8)) with
    | some i => .ok i
    | none => .invalidOpcode (fieldsOf (wordOfBytes (bs.take 8))).opcode

/-- The instruction the decoder reads from a row's word `w` of `nbits` bits, numbered as spec/opcode_table.json
numbers them, every bit above `nbits` zero: the 8 bytes of W in address order, given to `decode`. -/
def decodeTableWord (nbits w : Nat) : Option Instr :=
  match decode (bytesOfWord (BitVec.ofNat 64 (w % 2 ^ nbits)) 8) with
  | .ok i => some i
  | .invalidOpcode _ => none
  | .tooFewBytes _ => none

/-! ## Encoding (R104), with the assembler's values for the fields a form does not use (R115) -/

/-- Form ALU3 (R109): X = 0 with Rt, or X = 1 with imm32; the unused one of the two is 0. -/
def fieldsAlu3 (op : Byte) (sz : Size) (rd rs : RegId) : Operand3 → Fields
  | .reg rt => ⟨op, rd, codeOfSize sz, 0#1, rs, rt, 0#32⟩
  | .imm v => ⟨op, rd, codeOfSize sz, 1#1, rs, 0#5, v⟩

/-- Form MOV (R109): X = 0 with Rs, or X = 1 with imm32. -/
def fieldsMov (op : Byte) (sz : Size) (rd : RegId) : MoveSource → Fields
  | .reg rs => ⟨op, rd, codeOfSize sz, 0#1, rs, 0#5, 0#32⟩
  | .imm v => ⟨op, rd, codeOfSize sz, 1#1, 0#5, 0#5, v⟩

/-- Form DI (R109): X = 1 and Size = 3 (R115). -/
def fieldsDi (op : Byte) (rd : RegId) (imm : Imm) : Fields := ⟨op, rd, 3#2, 1#1, 0#5, 0#5, imm⟩

/-- Form MEM (R109): X = 1 exactly when the displacement is not zero (R115). -/
def fieldsMem (op : Byte) (sz : Size) (rd rs : RegId) (disp : Imm) : Fields :=
  ⟨op, rd, codeOfSize sz, if disp = 0#32 then 0#1 else 1#1, rs, 0#5, disp⟩

/-- Form ALU2 (R109). -/
def fieldsAlu2 (op : Byte) (sz : Size) (rd rs : RegId) : Fields := ⟨op, rd, codeOfSize sz, 0#1, rs, 0#5, 0#32⟩

/-- Form REL (R109): Size = 3, X = 0 (R115). -/
def fieldsRel (op : Byte) (off : Imm) : Fields := ⟨op, 0#5, 3#2, 0#1, 0#5, 0#5, off⟩

/-- Form BCC (R109): Rd = 0, Size = 3, X = 0 (R115, R203). -/
def fieldsBcc (op : Byte) (rs rt : RegId) (off : Imm) : Fields := ⟨op, 0#5, 3#2, 0#1, rs, rt, off⟩

/-- Forms S, D and NONE (R109): Size = 3, the rest 0 (R115). -/
def fieldsPlain (op : Byte) (rd rs : RegId) : Fields := ⟨op, rd, 3#2, 0#1, rs, 0#5, 0#32⟩

/-- The fields of an instruction's canonical encoding (R110, R115). -/
def fieldsOfInstr : Instr → Fields
  | .move sz rd src => fieldsMov 0x01#8 sz rd src
  | .movt rd imm => fieldsDi 0x02#8 rd imm
  | .moveq rd imm => fieldsDi 0x03#8 rd imm
  | .lea rd rs disp => ⟨0x04#8, rd, 3#2, 1#1, rs, 0#5, disp⟩
  | .load sz rd rs disp => fieldsMem 0x10#8 sz rd rs disp
  | .store sz rd rs disp => fieldsMem 0x11#8 sz rd rs disp
  | .add sz rd rs op => fieldsAlu3 0x20#8 sz rd rs op
  | .sub sz rd rs op => fieldsAlu3 0x21#8 sz rd rs op
  | .mulu sz rd rs op => fieldsAlu3 0x22#8 sz rd rs op
  | .muls sz rd rs op => fieldsAlu3 0x23#8 sz rd rs op
  | .divu sz rd rs op => fieldsAlu3 0x24#8 sz rd rs op
  | .divs sz rd rs op => fieldsAlu3 0x25#8 sz rd rs op
  | .mod sz rd rs op => fieldsAlu3 0x26#8 sz rd rs op
  | .neg sz rd rs => fieldsAlu2 0x27#8 sz rd rs
  | .and sz rd rs op => fieldsAlu3 0x30#8 sz rd rs op
  | .or sz rd rs op => fieldsAlu3 0x31#8 sz rd rs op
  | .eor sz rd rs op => fieldsAlu3 0x32#8 sz rd rs op
  | .not sz rd rs => fieldsAlu2 0x33#8 sz rd rs
  | .lsl sz rd rs op => fieldsAlu3 0x34#8 sz rd rs op
  | .lsr sz rd rs op => fieldsAlu3 0x35#8 sz rd rs op
  | .asr sz rd rs op => fieldsAlu3 0x36#8 sz rd rs op
  | .bra off => fieldsRel 0x40#8 off
  | .beq rs rt off => fieldsBcc 0x41#8 rs rt off
  | .bne rs rt off => fieldsBcc 0x42#8 rs rt off
  | .blt rs rt off => fieldsBcc 0x43#8 rs rt off
  | .bge rs rt off => fieldsBcc 0x44#8 rs rt off
  | .bgt rs rt off => fieldsBcc 0x45#8 rs rt off
  | .ble rs rt off => fieldsBcc 0x46#8 rs rt off
  | .bhi rs rt off => fieldsBcc 0x47#8 rs rt off
  | .bls rs rt off => fieldsBcc 0x48#8 rs rt off
  | .jsr off => fieldsRel 0x50#8 off
  | .rts => fieldsPlain 0x51#8 0#5 0#5
  | .push rs => fieldsPlain 0x52#8 0#5 rs
  | .pop rd => fieldsPlain 0x53#8 rd 0#5
  | .nop => fieldsPlain 0xE0#8 0#5 0#5
  | .halt => fieldsPlain 0xE1#8 0#5 0#5
  | .sei => fieldsPlain 0xE2#8 0#5 0#5
  | .cli => fieldsPlain 0xE3#8 0#5 0#5
  | .rti => fieldsPlain 0xE4#8 0#5 0#5
  | .wait usec => fieldsDi 0xE5#8 0#5 usec

/-- The canonical word W of an instruction (R102, R104, R115). -/
def encodeWord (i : Instr) : Word :=
  wordOfFields (fieldsOfInstr i)

/-- The canonical 8 bytes of an instruction, byte 0 first (R104, R115). -/
def encode (i : Instr) : List Byte :=
  bytesOfWord (encodeWord i) 8

end Sys2Proof
end

