-- ==== Sys2Proof/Config.lean ====
section
/-! DEFINITION. What is fixed for the machine: the constants of spec/00_scope.md R5, and the free values for
what the spec leaves open (R6). A free value has no body: nothing in Lean can evaluate it or prove a value of it,
so a theorem about the model holds whatever it is. -/

namespace Sys2Proof

/-- One access of the CPU that touches at least one byte outside RAM, as the platform sees it
(spec/20_memory.md R69, R70, R74). `n` is the number of bytes. -/
inductive BusEvent where
  /-- a data or stack read of `n` bytes at `addr` -/
  | read (addr n : Nat)
  /-- a data or stack write of the low `8n` bits of `value` at `addr` -/
  | write (addr n : Nat) (value : Word)
  /-- an instruction fetch at `addr` -/
  | fetch (addr : Nat)
deriving DecidableEq, Repr

namespace Config

/-- `PROG_START`: the reset value of the PC (R5, R321). -/
def progStart : Word := 0x1000#64

/-- `STACK_START`: the reset value of SP (R5, R53). -/
def stackStart : Word := 0x9F000#64

/-- `SAMPLE_RATE`: instructions per timer decrement (R5, R285). -/
def sampleRate : Nat := 44100

/-- `TIMER_STOPPED` (R5, R46). -/
def timerStopped : BitVec 32 := 0#32

/-- `TIMER_RUNNING` (R5, R46). -/
def timerRunning : BitVec 32 := 1#32

/-- `TIMER_EXPIRED` (R5, R46). -/
def timerExpired : BitVec 32 := 2#32

/-- FREE VALUE. What a RAM byte that nothing has written since launch holds: "a draw fixed at launch, not as
zero" (R322, D28, V7). DESIGN CHOICE, safe: log 1. -/
opaque launchByte : Nat → Byte

/-- FREE VALUE. What the byte at an address outside RAM reads as, after the accesses listed (newest first) have
reached the platform: "any value, drawn at each read" (R64, R69, V3, V5). DESIGN CHOICE: log 2. -/
opaque platformByte : List BusEvent → Nat → Byte

end Config

end Sys2Proof
end

