-- ==== Sys2Proof/Machine/Parameters.lean ====
section
/-! DEFINITION. The parameters that the source leaves open and that spec/00_scope.md R6 has a model take as arguments.
What R6 lists besides is an argument of `launch` (the vector, the timer fields, the cycle counter) or the free value
`Config.launchByte` (the initial contents of memory). -/

namespace Sys2Proof.Machine

/-- The parameters that no action of the host sets during a run (R6). State holds them; a run never changes them. -/
structure Parameters where
  /-- `MEM_SIZE`: bytes of physical memory that data accesses reach (R6, R71, D9); log 5 -/
  memSize : Nat
  /-- `RAM_REGIONS`: first and last address of each range with plain read-what-was-written behaviour (R6, R64, D11);
  log 6 -/
  ramRegions : List (Nat × Nat)
  /-- `divs_overflow`: the quotient of DIVS for -2^63 divided by -1 (R6, R166, D16); log 4 -/
  divsOverflow : Word
deriving DecidableEq, Repr

/-- The defaults the spec takes (R6): 32 MB, RAM from 0x00000 to 0x9FFFF, and the wrapped quotient. DESIGN CHOICE:
logs 5, 6 and 4. -/
def defaultParameters : Parameters := ⟨0x2000000, [(0x00000, 0x9FFFF)], 0x8000000000000000#64⟩

end Sys2Proof.Machine
end

