-- ==== Sys2Proof/Machine/MemoryMap.lean ====
section
/-! DEFINITION. The address map and what answers at each address (spec/20_memory.md R63, R64), for every value of the
parameters `MEM_SIZE` and `RAM_REGIONS`. -/

namespace Sys2Proof.Machine

/-- Where admitted data accesses end: at `MEM_SIZE`, and no access runs past the top of the 32-bit address space
(R71). -/
def accessLimit (p : Parameters) : Nat := min p.memSize (2 ^ 32)

/-- Size of the space instructions are fetched from (R5, R68): 32 MB. -/
def fetchSpace : Nat := 0x2000000

/-- The named windows of the map (R63). -/
inductive Window where
  | vgaVram | vgaText | videoChip | terminal | audioChip | psg | pokey | sid | ted | vgaRegs | ula | videoRam
deriving DecidableEq, Repr

/-- The DEVICE rows of the map, bounds inclusive (R63). The bounds are normative, the sizes are not (C7). -/
def deviceMap : List (Nat × Nat × Window) :=
  [(0xA0000, 0xAFFFF, .vgaVram), (0xB8000, 0xBFFFF, .vgaText), (0xF0000, 0xF0054, .videoChip),
   (0xF0700, 0xF07FF, .terminal), (0xF0800, 0xF0B3F, .audioChip), (0xF0C00, 0xF0C1C, .psg),
   (0xF0D00, 0xF0D1D, .pokey), (0xF0E00, 0xF0E2D, .sid), (0xF0F00, 0xF0F5F, .ted),
   (0xF1000, 0xF13FF, .vgaRegs), (0xF2000, 0xF200B, .ula), (0x100000, 0x4FFFFF, .videoRam)]

/-- The region classes (R64). -/
inductive RegionClass where
  /-- returns on read the byte last written -/
  | ram
  /-- belongs to a platform device or a video memory window: reads are free values -/
  | device (w : Window)
  /-- an address the map does not list: treated like DEVICE -/
  | undescribed
deriving DecidableEq, Repr

/-- The address has RAM behaviour (R64). -/
def isRam (p : Parameters) (a : Nat) : Bool :=
  p.ramRegions.any fun r => decide (r.1 ≤ a) && decide (a ≤ r.2)

/-- The class of an address (R63, R64). -/
def regionClass (p : Parameters) (a : Nat) : RegionClass :=
  if isRam p a then .ram
  else
    match deviceMap.find? (fun r => decide (r.1 ≤ a) && decide (a ≤ r.2.1)) with
    | some r => .device r.2.2
    | none => .undescribed

/-- Some byte of the access lies outside RAM, so the platform sees the access (R64, R69, R70). -/
def touchesPlatform (p : Parameters) (a : Nat) : Nat → Bool
  | 0 => false
  | n + 1 => !isRam p a || touchesPlatform p (a + 1) n

end Sys2Proof.Machine
end

