-- ==== Sys2Proof/Machine/State.lean ====
section
/-! DEFINITION. The state of the IE64 as plain data, why a step can stop, and the state after reset
(spec/10_state.md R30 to R53). The registers and control fields are the whole of the CPU's state (R50). -/

namespace Sys2Proof.Machine

/-- The bytes written into RAM since launch, by the host or by the CPU (R51, R322): address and byte. An address
that is not listed holds a byte that nothing has written (log 1). -/
abbrev Memory := List Host.Cell

/-- The one canonical form: addresses strictly rising, and none outside RAM (a write outside RAM leaves nothing
to read back, R70). -/
abbrev Memory.wf (p : Parameters) (m : Memory) : Prop :=
  List.Pairwise (fun c d : Host.Cell => c.1 < d.1) m ∧ ∀ c ∈ m, isRam p c.1 = true

/-- Which access a fault is about. -/
inductive AccessKind where
  | read | write
deriving DecidableEq, Repr

/-- Why the machine stops. -/
inductive Fault where
  /-- Raised by `step`: byte 0 of the fetched instruction is none of the 40 opcodes. The hardware prints an error
  message and halts (R112, R281); nothing may be relied on about the pc (D24). Safe: the hardware stops too. -/
  | invalidOpcode (op : Byte)
  /-- Raised by a LOAD, a STORE, a stack instruction or interrupt entry: the bytes do not lie below `MEM_SIZE` and
  2^32. The spec calls this unspecified and has a model fault (R71, D9, V1). Safe. -/
  | accessBeyondMemory (kind : AccessKind) (addr : Addr) (n : Nat)
  /-- Raised by the fetch: the 8 bytes would pass the top of the 25-bit space. The spec calls this unspecified and
  has a model fault (R74, D7, V2). Safe. -/
  | fetchBeyondTop (addr : FetchAddr)
  /-- Raised by `step` when `running` is false: the run has ended and there is no further step (R330, D25, V14).
  It is a stuck state, not an error: after HALT it is the normal end of a run. Safe. -/
  | halted
deriving DecidableEq, Repr

/-- Why an instruction has no meaning. -/
inductive Refusal where
  /-- Raised by `exec` for an instruction that is not modelled yet. No arm answers it: every instruction has its
  meaning. Safe. -/
  | notModelled (mnemonic : String)
deriving DecidableEq, Repr

/-- The machine (R30 to R49, R51). -/
structure State where
  /-- R0..R31 (R30). Element 0 is R0, which reads as 0 whatever stands here and is never written (R31):
  registers are read and written through `readReg` and `writeReg` alone. -/
  regs : Vector Word 32
  /-- the program counter (R35) -/
  pc : Word
  /-- set by SEI, cleared by CLI (R41) -/
  interruptEnabled : Bool
  /-- set by interrupt entry, cleared by RTI (R42) -/
  inInterrupt : Bool
  /-- where interrupt entry sends the PC; only the host sets it (R43) -/
  interruptVector : Word
  /-- master enable of the timer (R47) -/
  timerEnabled : Bool
  /-- STOPPED 0, RUNNING 1 or EXPIRED 2 (R46) -/
  timerState : BitVec 32
  /-- current countdown value (R44) -/
  timerCount : Word
  /-- auto-reload value (R45) -/
  timerPeriod : Word
  /-- instructions since the last timer decrement (R48) -/
  cycleCounter : Nat
  /-- the instruction cycle repeats while it is true (R49) -/
  running : Bool
  /-- RAM (R51) -/
  mem : Memory
  /-- The model's own field: the accesses that have reached an address outside RAM, newest first (R64, R69,
  R70). Log 24. -/
  busEvents : List BusEvent
  /-- `MEM_SIZE`, `RAM_REGIONS` and `divs_overflow` (R6): arguments of the whole model, held here so that every
  statement about a state is for every value of them. Nothing but the host's launch sets them. Logs 4, 5 and 6. -/
  parameters : Parameters
deriving DecidableEq, Repr

/-- The machine right after reset, for every value of the open parameters (R6, R53, R320). Every register has a reset
value of the spec. `cycleCounter` 0 (D20) and `running` true (D25) are the spec's decisions, DESIGN CHOICE: logs 10
and 11; `mem` with nothing listed (D28: log 1) and `busEvents` empty (log 24) are the model's, DESIGN CHOICE. -/
def State.resetOn (p : Parameters) : State where
  regs := (Vector.replicate 32 0#64).set 31 Config.stackStart
  pc := Config.progStart
  interruptEnabled := false
  inInterrupt := false
  interruptVector := 0#64
  timerEnabled := false
  timerState := Config.timerStopped
  timerCount := 0#64
  timerPeriod := 0#64
  cycleCounter := 0
  running := true
  mem := []
  busEvents := []
  parameters := p

/-- The machine right after reset with the open parameters at the spec's defaults, DESIGN CHOICE: logs 4, 5
and 6. -/
def State.reset : State := State.resetOn defaultParameters

/-- What a step or an instruction answers. -/
abbrev Result := Host.Outcome State Fault Refusal

end Sys2Proof.Machine
end

