-- ==== Sys2Proof/Machine/Ops.lean ====
section
/-! DEFINITION. The named operations every meaning is written with: registers (R11, R31), the program counter
(R37), memory (R60, R64 to R74), the stack (R33, R67, R220), interrupt entry (R290) and the return from it
(R234). -/

namespace Sys2Proof.Machine

/-- Do `x`, then `f` with what it answers; a stop of `x` is a stop of the whole. -/
def andThen {α β : Type} (x : Host.Outcome α Fault Refusal) (f : α → Host.Outcome β Fault Refusal) :
    Host.Outcome β Fault Refusal :=
  match x with
  | .next a => f a
  | .fault r => .fault r
  | .refused r => .refused r

/-! ## Registers -/

/-- `SP` is R31 (R33). -/
def sp : RegId := 31#5

/-- `x[i]`: R0 reads as 0 (R11, R31). -/
def readReg (s : State) (r : RegId) : Word :=
  if r = 0#5 then 0#64 else s.regs[r.toNat]'r.isLt

/-- `x[i] <- v`: a write to R0 is discarded (R11, R31). -/
def writeReg (s : State) (r : RegId) (v : Word) : State :=
  if r = 0#5 then s else { s with regs := s.regs.set r.toNat v r.isLt }

/-- `pc <- t` (R12). -/
def setPc (s : State) (t : Word) : State :=
  { s with pc := t }

/-- `pc <- pc + 8`, modulo 2^64 (R37). -/
def advancePc (s : State) : State :=
  setPc s (s.pc + 8#64)

/-! ## Memory -/

/-- The byte written last at a listed address (R64). -/
def lookupByte (m : Memory) (a : Nat) : Option Byte :=
  match m with
  | [] => none
  | c :: rest => if c.1 = a then some c.2 else lookupByte rest a

/-- List a byte, keeping the addresses strictly rising. -/
def insertByte (m : Memory) (a : Nat) (b : Byte) : Memory :=
  match m with
  | [] => [(a, b)]
  | c :: rest =>
    if a < c.1 then (a, b) :: c :: rest
    else if c.1 = a then (a, b) :: rest
    else c :: insertByte rest a b

/-- What a RAM byte holds: the byte last written, or the free value it had at launch (R64, R322). -/
def ramByte (m : Memory) (a : Nat) : Byte :=
  (lookupByte m a).getD (Config.launchByte a)

/-- The byte a read of address `a` gives: RAM by its contents, every other address by a free value that depends
on what has reached the platform (R64, R69). -/
def readByte (s : State) (a : Nat) : Byte :=
  if isRam s.parameters a then ramByte s.mem a else Config.platformByte s.busEvents a

/-- Store one byte: a byte outside RAM leaves nothing to read back (R64, R70). -/
def storeByte (p : Parameters) (m : Memory) (a : Nat) (b : Byte) : Memory :=
  if isRam p a then insertByte m a b else m

/-- `n` bytes at `a`, in address order (R60). -/
def readBytes (s : State) (a : Nat) : Nat → List Byte
  | 0 => []
  | n + 1 => readByte s a :: readBytes s (a + 1) n

/-- Store a list of bytes in address order from `a` on (R60). -/
def storeBytes (p : Parameters) (m : Memory) (a : Nat) : List Byte → Memory
  | [] => m
  | b :: bs => storeBytes p (storeByte p m a b) (a + 1) bs

/-- The platform sees an access that touches a byte outside RAM (R69, R70, R77). -/
def noteAccess (s : State) (a n : Nat) (e : BusEvent) : State :=
  if touchesPlatform s.parameters a n then { s with busEvents := e :: s.busEvents } else s

/-- The access is admitted: `a + n <= MEM_SIZE`, and no wrap-around past 2^32 either (R71). -/
def admitted (p : Parameters) (a : Addr) (n : Nat) : Bool :=
  decide (a.toNat + n ≤ accessLimit p)

/-- `MemRead(a, n)`: the `8n`-bit little-endian value, zero-extended, and the state after the access (R13, R69).
No alignment is required (R73). -/
def memRead (s : State) (a : Addr) (n : Nat) : Host.Outcome (Word × State) Fault Refusal :=
  if admitted s.parameters a n then
    .next (wordOfBytes (readBytes s a.toNat n), noteAccess s a.toNat n (.read a.toNat n))
  else .fault (.accessBeyondMemory .read a n)

/-- `MemWrite(a, n, v)`: the low `8n` bits of `v`, little-endian (R13, R70). No alignment is required (R73). -/
def memWrite (s : State) (a : Addr) (n : Nat) (v : Word) : Result :=
  if admitted s.parameters a n then
    .next (noteAccess { s with mem := storeBytes s.parameters s.mem a.toNat (bytesOfWord v n) } a.toNat n
      (.write a.toNat n v))
  else .fault (.accessBeyondMemory .write a n)

/-! ## The stack -/

/-- `trunc32(v)`: the low 32 bits of an address computed in 64 bits (R13). -/
def trunc32 (v : Word) : Addr :=
  v.setWidth 32

/-- `x[31] <- x[31] - 8`, modulo 2^64 (R33, R220). -/
def decrementSp (s : State) : State :=
  writeReg s sp (readReg s sp - 8#64)

/-- `x[31] <- x[31] + 8`, modulo 2^64 (R33, R220). -/
def incrementSp (s : State) : State :=
  writeReg s sp (readReg s sp + 8#64)

/-- The address of an implicit stack access, `trunc32(x[31])` (R67). -/
def stackAddr (s : State) : Addr :=
  trunc32 (readReg s sp)

/-- A push: decrement SP, then write 8 bytes at the new SP. The value is computed from the state after the
decrement (R220, R223, D17). -/
def pushWord (s : State) (value : State → Word) : Result :=
  memWrite (decrementSp s) (stackAddr (decrementSp s)) 8 (value (decrementSp s))

/-- The read of a pop: 8 bytes at SP (R222, R224). -/
def popRead (s : State) : Host.Outcome (Word × State) Fault Refusal :=
  memRead s (stackAddr s) 8

/-- Pop the program counter: read, set the PC, increment SP (R222, R234). -/
def popPc (s : State) : Result :=
  andThen (popRead s) fun r => .next (incrementSp (setPc r.2 r.1))

/-! ## Taking the timer interrupt, and returning from it -/

/-- `InterruptEntry()`: set `inInterrupt`, push the unmasked PC, continue at `interruptVector` (R290). Nothing else
is saved or changed; a push that R71 does not admit faults. -/
def interruptEntry (s : State) : Result :=
  andThen (pushWord { s with inInterrupt := true } fun t => t.pc) fun t =>
    .next (setPc t t.interruptVector)

/-- The return from an interrupt: pop the PC, then clear `inInterrupt` (R234, R293). -/
def returnFromInterrupt (s : State) : Result :=
  andThen (popPc s) fun t => .next { t with inInterrupt := false }

end Sys2Proof.Machine
end

