-- ==== Sys2Proof/Machine/Operands.lean ====
section
/-! DEFINITION. Operand forms: sizes and masking (R10, R105), the third operand (R14, R106), MOVE's source (R140),
effective addresses (R66), branch targets (R200). -/

namespace Sys2Proof.Machine

/-- `bytes(s)`: 1, 2, 4, 8 (R10). -/
def sizeBytes : Size → Nat
  | .b => 1
  | .w => 2
  | .l => 4
  | .q => 8

/-- `mask_s(v)`, the source's `maskToSize` (R10, R105). -/
def maskToSize (sz : Size) (v : Word) : Word :=
  match sz with
  | .b => v &&& 0xFF#64
  | .w => v &&& 0xFFFF#64
  | .l => v &&& 0xFFFFFFFF#64
  | .q => v

/-- The value read as a signed number of the size and sign-extended to 64 bits (R193, R194). -/
def signExtendFromSize (sz : Size) (v : Word) : Word :=
  match sz with
  | .b => (v.setWidth 8).signExtend 64
  | .w => (v.setWidth 16).signExtend 64
  | .l => (v.setWidth 32).signExtend 64
  | .q => v

/-- `zext_64(imm32)` (R14, R107). -/
def zextImm (imm : Imm) : Word :=
  imm.setWidth 64

/-- `sext_64(imm32)` (R9, R107). -/
def sextImm (imm : Imm) : Word :=
  imm.signExtend 64

/-- `op3`: register Rt, or imm32 zero-extended (R14, R106). -/
def op3Value (s : State) : Operand3 → Word
  | .reg rt => readReg s rt
  | .imm v => zextImm v

/-- MOVE's source: register Rs, or imm32 zero-extended (R140). -/
def moveSourceValue (s : State) : MoveSource → Word
  | .reg rs => readReg s rs
  | .imm v => zextImm v

/-- The base plus the sign-extended displacement, modulo 2^64 (R66, R143). -/
def displaced (s : State) (rs : RegId) (disp : Imm) : Word :=
  readReg s rs + sextImm disp

/-- `ea` of LOAD and STORE: the sum truncated to 32 bits (R66, R150). -/
def effectiveAddr (s : State) (rs : RegId) (disp : Imm) : Addr :=
  trunc32 (displaced s rs disp)

/-- `pc + sext_64(imm32)`, relative to the instruction's own address, modulo 2^64 (R200). -/
def branchTarget (s : State) (off : Imm) : Word :=
  s.pc + sextImm off

/-- Write a result masked to the size into the whole of Rd, and advance (R10, R160 (c), R180, R190 (d)). -/
def writeMasked (s : State) (sz : Size) (rd : RegId) (v : Word) : Result :=
  .next (advancePc (writeReg s rd (maskToSize sz v)))

/-- A three-operand instruction: both sources at their full 64 bits, the result masked (R160, R180). -/
def threeOperand (f : Word → Word → Word) (sz : Size) (rd rs : RegId) (op : Operand3) (s : State) : Result :=
  writeMasked s sz rd (f (readReg s rs) (op3Value s op))

/-- A two-operand instruction (R168, R184). -/
def twoOperand (f : Word → Word) (sz : Size) (rd rs : RegId) (s : State) : Result :=
  writeMasked s sz rd (f (readReg s rs))

end Sys2Proof.Machine
end

