-- ==== Sys2Proof/Machine/Arithmetic.lean ====
section
/-! DEFINITION. ADD, SUB, MULU, MULS, DIVU, DIVS, MOD, NEG (spec/42_arithmetic.md R160 to R170). Each reads its
sources at 64 bits, computes modulo 2^64, masks only the result, and traps on nothing (R160). -/

namespace Sys2Proof.Machine

/-- The low 64 bits of the unsigned product (R163). -/
def mulUnsigned (a b : Word) : Word :=
  BitVec.ofNat 64 (a.toNat * b.toNat)

/-- The low 64 bits of the signed product (R164). -/
def mulSigned (a b : Word) : Word :=
  BitVec.ofInt 64 (a.toInt * b.toInt)

/-- The unsigned quotient; a zero divisor gives 0 (R165). -/
def divUnsigned (a b : Word) : Word :=
  if b = 0#64 then 0#64 else BitVec.ofNat 64 (a.toNat / b.toNat)

/-- The signed quotient rounded toward zero (R166, D15: log 17); a zero divisor gives 0; -2^63 divided by -1 gives
`overflow`, the parameter `divs_overflow` (D16: log 4). -/
def divSigned (overflow a b : Word) : Word :=
  if b.toInt = 0 then 0#64
  else if a.toInt = -9223372036854775808 ∧ b.toInt = -1 then overflow
  else BitVec.ofInt 64 (a.toInt.tdiv b.toInt)

/-- The unsigned remainder; a zero divisor gives 0, not the dividend (R167). -/
def modUnsigned (a b : Word) : Word :=
  if b = 0#64 then 0#64 else BitVec.ofNat 64 (a.toNat % b.toNat)

/-- ADD (R161). -/
def execAdd (sz : Size) (rd rs : RegId) (op : Operand3) (s : State) : Result :=
  threeOperand (fun a b => a + b) sz rd rs op s

/-- SUB: Rs minus op3 (R162). -/
def execSub (sz : Size) (rd rs : RegId) (op : Operand3) (s : State) : Result :=
  threeOperand (fun a b => a - b) sz rd rs op s

/-- MULU (R163). -/
def execMulu (sz : Size) (rd rs : RegId) (op : Operand3) (s : State) : Result :=
  threeOperand mulUnsigned sz rd rs op s

/-- MULS (R164). -/
def execMuls (sz : Size) (rd rs : RegId) (op : Operand3) (s : State) : Result :=
  threeOperand mulSigned sz rd rs op s

/-- DIVU: Rs divided by op3 (R165). -/
def execDivu (sz : Size) (rd rs : RegId) (op : Operand3) (s : State) : Result :=
  threeOperand divUnsigned sz rd rs op s

/-- DIVS: Rs divided by op3 (R166). -/
def execDivs (sz : Size) (rd rs : RegId) (op : Operand3) (s : State) : Result :=
  threeOperand (divSigned s.parameters.divsOverflow) sz rd rs op s

/-- MOD: Rs modulo op3 (R167). -/
def execMod (sz : Size) (rd rs : RegId) (op : Operand3) (s : State) : Result :=
  threeOperand modUnsigned sz rd rs op s

/-- NEG: the two's complement of Rs (R168). -/
def execNeg (sz : Size) (rd rs : RegId) (s : State) : Result :=
  twoOperand (fun a => 0#64 - a) sz rd rs s

end Sys2Proof.Machine
end

