-- ==== Sys2Proof/Machine/Flags.lean ====
section
/-! DEFINITION. The IE64 has no flags register and no condition codes (R39): the conditional branches compare two
registers at all 64 bits inside the instruction (R211, R212). These are those comparisons, each as the spec
writes it. -/

namespace Sys2Proof.Machine

/-- `Rs == Rt` (R203, R211). -/
def condEq (a b : Word) : Bool := decide (a = b)

/-- `Rs != Rt` (R204, R211). -/
def condNe (a b : Word) : Bool := decide (a ≠ b)

/-- `int64(Rs) < int64(Rt)` (R205, R211). -/
def condLt (a b : Word) : Bool := decide (a.toInt < b.toInt)

/-- `int64(Rs) >= int64(Rt)` (R206, R211). -/
def condGe (a b : Word) : Bool := decide (a.toInt ≥ b.toInt)

/-- `int64(Rs) > int64(Rt)` (R207, R211). -/
def condGt (a b : Word) : Bool := decide (a.toInt > b.toInt)

/-- `int64(Rs) <= int64(Rt)` (R208, R211). -/
def condLe (a b : Word) : Bool := decide (a.toInt ≤ b.toInt)

/-- `uint64(Rs) > uint64(Rt)` (R209, R211). -/
def condHi (a b : Word) : Bool := decide (a.toNat > b.toNat)

/-- `uint64(Rs) <= uint64(Rt)` (R210, R211). -/
def condLs (a b : Word) : Bool := decide (a.toNat ≤ b.toNat)

/-- A conditional branch: to `pc + sext_64(imm32)` when the condition holds of Rs and Rt, else to `pc + 8`
(R200, R212). -/
def conditionalBranch (cond : Word → Word → Bool) (rs rt : RegId) (off : Imm) (s : State) : Result :=
  if cond (readReg s rs) (readReg s rt) then .next (setPc s (branchTarget s off)) else .next (advancePc s)

end Sys2Proof.Machine
end

