-- ==== Sys2Proof/Machine/Branch.lean ====
section
/-! DEFINITION. BRA and the eight conditional branches (spec/45_branches.md R200 to R212). -/

namespace Sys2Proof.Machine

/-- BRA (R202). -/
def execBra (off : Imm) (s : State) : Result :=
  .next (setPc s (branchTarget s off))

/-- BEQ (R203). -/
def execBeq (rs rt : RegId) (off : Imm) (s : State) : Result :=
  conditionalBranch condEq rs rt off s

/-- BNE (R204). -/
def execBne (rs rt : RegId) (off : Imm) (s : State) : Result :=
  conditionalBranch condNe rs rt off s

/-- BLT (R205). -/
def execBlt (rs rt : RegId) (off : Imm) (s : State) : Result :=
  conditionalBranch condLt rs rt off s

/-- BGE (R206). -/
def execBge (rs rt : RegId) (off : Imm) (s : State) : Result :=
  conditionalBranch condGe rs rt off s

/-- BGT (R207). -/
def execBgt (rs rt : RegId) (off : Imm) (s : State) : Result :=
  conditionalBranch condGt rs rt off s

/-- BLE (R208). -/
def execBle (rs rt : RegId) (off : Imm) (s : State) : Result :=
  conditionalBranch condLe rs rt off s

/-- BHI (R209). -/
def execBhi (rs rt : RegId) (off : Imm) (s : State) : Result :=
  conditionalBranch condHi rs rt off s

/-- BLS (R210). -/
def execBls (rs rt : RegId) (off : Imm) (s : State) : Result :=
  conditionalBranch condLs rs rt off s

end Sys2Proof.Machine
end

