-- ==== Sys2Proof/Machine/DataMovement.lean ====
section
/-! DEFINITION. MOVE, MOVT, MOVEQ, LEA (spec/40_data_movement.md R140 to R144). -/

namespace Sys2Proof.Machine

/-- MOVE: the register or the zero-extended immediate, masked to the size (R140). -/
def execMove (sz : Size) (rd : RegId) (src : MoveSource) (s : State) : Result :=
  writeMasked s sz rd (moveSourceValue s src)

/-- MOVT: imm32 into bits 63:32 of Rd, bits 31:0 of Rd kept (R141). -/
def execMovt (rd : RegId) (imm : Imm) (s : State) : Result :=
  .next (advancePc (writeReg s rd ((readReg s rd &&& 0x00000000FFFFFFFF#64) ||| (zextImm imm <<< 32))))

/-- MOVEQ: imm32 sign-extended to 64 bits (R142). -/
def execMoveq (rd : RegId) (imm : Imm) (s : State) : Result :=
  .next (advancePc (writeReg s rd (sextImm imm)))

/-- LEA: the full 64-bit sum of Rs and the sign-extended displacement (R143). -/
def execLea (rd rs : RegId) (disp : Imm) (s : State) : Result :=
  .next (advancePc (writeReg s rd (displaced s rs disp)))

end Sys2Proof.Machine
end

