-- ==== Sys2Proof/Machine/LoadStore.lean ====
section
/-! DEFINITION. LOAD and STORE (spec/41_load_store.md R150 to R153). -/

namespace Sys2Proof.Machine

/-- LOAD: 1, 2, 4 or 8 bytes, zero-extended, into Rd; the read happens even when Rd is R0 (R151, R31). -/
def execLoad (sz : Size) (rd rs : RegId) (disp : Imm) (s : State) : Result :=
  andThen (memRead s (effectiveAddr s rs disp) (sizeBytes sz)) fun r =>
    .next (advancePc (writeReg r.2 rd r.1))

/-- STORE: the low 1, 2, 4 or 8 bytes of the register in the Rd field (R152). -/
def execStore (sz : Size) (rd rs : RegId) (disp : Imm) (s : State) : Result :=
  andThen (memWrite s (effectiveAddr s rs disp) (sizeBytes sz) (maskToSize sz (readReg s rd))) fun t =>
    .next (advancePc t)

end Sys2Proof.Machine
end

