-- ==== Sys2Proof/Machine/Logical.lean ====
section
/-! DEFINITION. AND, OR, EOR, NOT (spec/43_logical.md R180 to R184). -/

namespace Sys2Proof.Machine

/-- AND (R181). -/
def execAnd (sz : Size) (rd rs : RegId) (op : Operand3) (s : State) : Result :=
  threeOperand (fun a b => a &&& b) sz rd rs op s

/-- OR (R182). -/
def execOr (sz : Size) (rd rs : RegId) (op : Operand3) (s : State) : Result :=
  threeOperand (fun a b => a ||| b) sz rd rs op s

/-- EOR (R183). -/
def execEor (sz : Size) (rd rs : RegId) (op : Operand3) (s : State) : Result :=
  threeOperand (fun a b => a ^^^ b) sz rd rs op s

/-- NOT: all 64 bits inverted, then masked (R184). -/
def execNot (sz : Size) (rd rs : RegId) (s : State) : Result :=
  twoOperand (fun a => ~~~a) sz rd rs s

end Sys2Proof.Machine
end

