-- ==== Sys2Proof/Machine/Shift.lean ====
section
/-! DEFINITION. LSL, LSR, ASR (spec/44_shifts.md R190 to R194). -/

namespace Sys2Proof.Machine

/-- The shift count `op3[5:0]`: 0 to 63 at every size (R190 (a)). -/
def shiftCount (op3 : Word) : Nat :=
  (op3.extractLsb' 0 6).toNat

/-- LSL: zeros enter at bit 0 (R191). -/
def shiftLeft (a b : Word) : Word :=
  a <<< shiftCount b

/-- LSR: the whole 64-bit value, zeros enter at bit 63 (R192). -/
def shiftRightLogical (a b : Word) : Word :=
  a >>> shiftCount b

/-- ASR: the value sign-extended from the size, divided by `2^n` and rounded down (R193, R194). -/
def shiftRightArith (sz : Size) (a b : Word) : Word :=
  BitVec.ofInt 64 ((signExtendFromSize sz a).toInt.fdiv ((2 ^ shiftCount b : Nat) : Int))

/-- LSL (R191). -/
def execLsl (sz : Size) (rd rs : RegId) (op : Operand3) (s : State) : Result :=
  threeOperand shiftLeft sz rd rs op s

/-- LSR (R192). -/
def execLsr (sz : Size) (rd rs : RegId) (op : Operand3) (s : State) : Result :=
  threeOperand shiftRightLogical sz rd rs op s

/-- ASR (R193). -/
def execAsr (sz : Size) (rd rs : RegId) (op : Operand3) (s : State) : Result :=
  threeOperand (shiftRightArith sz) sz rd rs op s

end Sys2Proof.Machine
end

