-- ==== Sys2Proof/Machine/Subroutine.lean ====
section
/-! DEFINITION. JSR, RTS, PUSH, POP (spec/46_subroutine_stack.md R220 to R225). -/

namespace Sys2Proof.Machine

/-- JSR: push `pc + 8`, then go to `pc + sext_64(imm32)` (R221). -/
def execJsr (off : Imm) (s : State) : Result :=
  andThen (pushWord s fun t => t.pc + 8#64) fun t => .next (setPc t (branchTarget t off))

/-- RTS: pop the PC (R222). -/
def execRts (s : State) : Result :=
  popPc s

/-- PUSH: the 8 bytes of Rs as it stands after the decrement of SP (R223, D17). -/
def execPush (rs : RegId) (s : State) : Result :=
  andThen (pushWord s fun t => readReg t rs) fun t => .next (advancePc t)

/-- POP: read, write Rd, then increment SP as it stands after that write (R224, D17). -/
def execPop (rd : RegId) (s : State) : Result :=
  andThen (popRead s) fun r => .next (advancePc (incrementSp (writeReg r.2 rd r.1)))

end Sys2Proof.Machine
end

