-- ==== Sys2Proof/Machine/System.lean ====
section
/-! DEFINITION. NOP, HALT, SEI, CLI, RTI, WAIT (spec/47_system.md R230 to R236). None is privileged (R303). -/

namespace Sys2Proof.Machine

/-- NOP (R230). -/
def execNop (s : State) : Result :=
  .next (advancePc s)

/-- HALT: `running` becomes false, the PC is not advanced (R231). -/
def execHalt (s : State) : Result :=
  .next { s with running := false }

/-- SEI ENABLES interrupts (R232, R19). -/
def execSei (s : State) : Result :=
  .next (advancePc { s with interruptEnabled := true })

/-- CLI DISABLES interrupts (R233, R19). -/
def execCli (s : State) : Result :=
  .next (advancePc { s with interruptEnabled := false })

/-- RTI (R234). -/
def execRti (s : State) : Result :=
  returnFromInterrupt s

/-- WAIT: the pause is wall-clock time, which is not modelled; the effect is `pc + 8` for every count
(R235, R337, D27: log 15). -/
def execWait (_usec : Imm) (s : State) : Result :=
  .next (advancePc s)

end Sys2Proof.Machine
end

