-- ==== Sys2Proof/Machine/Dispatch.lean ====
section
/-! DEFINITION. One arm per instruction (R110), each one direct call of its meaning. -/

namespace Sys2Proof.Machine

/-- Execute the decoded instruction at the PC (R16 step 5). -/
def exec (i : Instr) (s : State) : Host.Outcome State Fault Refusal :=
  match i with
  | .move sz rd src => Sys2Proof.Machine.execMove sz rd src s
  | .movt rd imm => Sys2Proof.Machine.execMovt rd imm s
  | .moveq rd imm => Sys2Proof.Machine.execMoveq rd imm s
  | .lea rd rs disp => Sys2Proof.Machine.execLea rd rs disp s
  | .load sz rd rs disp => Sys2Proof.Machine.execLoad sz rd rs disp s
  | .store sz rd rs disp => Sys2Proof.Machine.execStore sz rd rs disp s
  | .add sz rd rs op => Sys2Proof.Machine.execAdd sz rd rs op s
  | .sub sz rd rs op => Sys2Proof.Machine.execSub sz rd rs op s
  | .mulu sz rd rs op => Sys2Proof.Machine.execMulu sz rd rs op s
  | .muls sz rd rs op => Sys2Proof.Machine.execMuls sz rd rs op s
  | .divu sz rd rs op => Sys2Proof.Machine.execDivu sz rd rs op s
  | .divs sz rd rs op => Sys2Proof.Machine.execDivs sz rd rs op s
  | .mod sz rd rs op => Sys2Proof.Machine.execMod sz rd rs op s
  | .neg sz rd rs => Sys2Proof.Machine.execNeg sz rd rs s
  | .and sz rd rs op => Sys2Proof.Machine.execAnd sz rd rs op s
  | .or sz rd rs op => Sys2Proof.Machine.execOr sz rd rs op s
  | .eor sz rd rs op => Sys2Proof.Machine.execEor sz rd rs op s
  | .not sz rd rs => Sys2Proof.Machine.execNot sz rd rs s
  | .lsl sz rd rs op => Sys2Proof.Machine.execLsl sz rd rs op s
  | .lsr sz rd rs op => Sys2Proof.Machine.execLsr sz rd rs op s
  | .asr sz rd rs op => Sys2Proof.Machine.execAsr sz rd rs op s
  | .bra off => Sys2Proof.Machine.execBra off s
  | .beq rs rt off => Sys2Proof.Machine.execBeq rs rt off s
  | .bne rs rt off => Sys2Proof.Machine.execBne rs rt off s
  | .blt rs rt off => Sys2Proof.Machine.execBlt rs rt off s
  | .bge rs rt off => Sys2Proof.Machine.execBge rs rt off s
  | .bgt rs rt off => Sys2Proof.Machine.execBgt rs rt off s
  | .ble rs rt off => Sys2Proof.Machine.execBle rs rt off s
  | .bhi rs rt off => Sys2Proof.Machine.execBhi rs rt off s
  | .bls rs rt off => Sys2Proof.Machine.execBls rs rt off s
  | .jsr off => Sys2Proof.Machine.execJsr off s
  | .rts => Sys2Proof.Machine.execRts s
  | .push rs => Sys2Proof.Machine.execPush rs s
  | .pop rd => Sys2Proof.Machine.execPop rd s
  | .nop => Sys2Proof.Machine.execNop s
  | .halt => Sys2Proof.Machine.execHalt s
  | .sei => Sys2Proof.Machine.execSei s
  | .cli => Sys2Proof.Machine.execCli s
  | .rti => Sys2Proof.Machine.execRti s
  | .wait usec => Sys2Proof.Machine.execWait usec s

end Sys2Proof.Machine
end

