-- ==== Sys2Proof/Machine/Timer.lean ====
section
/-! DEFINITION. The timer: `TimerTick()`, run once per instruction cycle before the fetch (R16, R283 to R292).
The readings the spec decides (D18, D19, D21) are log 9. -/

namespace Sys2Proof.Machine

/-- The interrupt check: enabled and not in service performs `InterruptEntry()`, else the expiry is dropped
(R289, R292). -/
def interruptCheck (s : State) : Result :=
  if s.interruptEnabled && !s.inInterrupt then interruptEntry s else .next s

/-- The reload after an expiry, "if the timer is still enabled" (R286 step 3). -/
def reloadCount (s : State) : State :=
  if s.timerEnabled then { s with timerCount := s.timerPeriod } else s

/-- The count has just reached 0 (R286 step 3): EXPIRED, the check, the reload. -/
def timerExpire (s : State) : Result :=
  andThen (interruptCheck { s with timerState := Config.timerExpired }) fun t => .next (reloadCount t)

/-- The count was found 0 before this tick (R286 step 4): a period that is not 0 reloads it and sets RUNNING. -/
def timerRestart (s : State) : State :=
  if s.timerPeriod = 0#64 then s
  else { s with timerCount := s.timerPeriod, timerState := Config.timerRunning }

/-- One decrement of the timer count; a count of 0 is never decremented (R286 steps 2 to 4, D21). -/
def timerDecrement (s : State) : Result :=
  if s.timerCount = 0#64 then .next (timerRestart s)
  else if s.timerCount - 1#64 = 0#64 then timerExpire { s with timerCount := s.timerCount - 1#64 }
  else .next { s with timerCount := s.timerCount - 1#64 }

/-- `TimerTick()` (R286): nothing moves while `timerEnabled` is false; every `SAMPLE_RATE` ticks the counter
starts again from 0 and the count is decremented. -/
def timerTick (s : State) : Result :=
  if s.timerEnabled then
    if s.cycleCounter + 1 ≥ Config.sampleRate then timerDecrement { s with cycleCounter := 0 }
    else .next { s with cycleCounter := s.cycleCounter + 1 }
  else .next s

end Sys2Proof.Machine
end

