-- ==== Sys2Proof/Machine/Fetch.lean ====
section
/-! DEFINITION. Fetching an instruction (R36, R68, R74), and storing one where it is fetched. -/

namespace Sys2Proof.Machine

/-- `pc & 0x1FFFFFF`: the fetch address; the PC itself keeps its 64 bits (R36, R68, D4). -/
def fetchAddr (s : State) : FetchAddr :=
  s.pc.setWidth 25

/-- The 8 bytes from a 25-bit address on stay within the 25-bit space (R74, D7). -/
def fetchable (a : FetchAddr) : Bool :=
  decide (a.toNat + 8 ≤ fetchSpace)

/-- `FetchInstr(pc & 0x1FFFFFF)`: the word W of the 8 bytes, read as they are now (R74, R83), and the state after
the fetch. No alignment is required (R38). -/
def fetchInstr (s : State) : Host.Outcome (Word × State) Fault Refusal :=
  if fetchable (fetchAddr s) then
    .next (wordOfBytes (readBytes s (fetchAddr s).toNat 8),
      noteAccess s (fetchAddr s).toNat 8 (.fetch (fetchAddr s).toNat))
  else .fault (.fetchBeyondTop (fetchAddr s))

/-- Where the next instruction is fetched: at the PC after the tick, which an interrupt may have set (R16). -/
def nextFetchAddr (s : State) : FetchAddr :=
  match timerTick s with
  | .next t => fetchAddr t
  | .fault _ => fetchAddr s
  | .refused _ => fetchAddr s

/-- Store an instruction word where the next fetch reads it, the machine running (log 16). -/
def placeInstr (s : State) (w : Word) : State :=
  { s with mem := storeBytes s.parameters s.mem (nextFetchAddr s).toNat (bytesOfWord w 8), running := true }

end Sys2Proof.Machine
end

