-- ==== Sys2Proof/Machine/Step.lean ====
section
/-! DEFINITION. The instruction cycle (R16): the timer tick, the fetch, the decode, the instruction. -/

namespace Sys2Proof.Machine

/-- Decode and execute a fetched word; an unassigned opcode is the invalid-opcode stop (R16 steps 4 and 5,
R281). -/
def runWord (w : Word) (s : State) : Result :=
  match decodeWord w with
  | some i => exec i s
  | none => .fault (.invalidOpcode (fieldsOf w).opcode)

/-- Fetch at the PC, then decode and execute (R16 steps 2 to 5). -/
def fetchAndRun (s : State) : Result :=
  andThen (fetchInstr s) fun r => runWord r.1 r.2

/-- One instruction cycle while `running` is true (R16); a machine that is not running has no further step
(R330, D25). -/
def step (s : State) : Host.Outcome State Fault Refusal :=
  if s.running then andThen (timerTick s) fetchAndRun else .fault .halted

/-- The state with an instruction stored where `step` fetches its next one, and running: the word's low `nbits`
bits, every bit above them 0 (log 16). -/
def State.withFetchWord (s : State) (nbits w : Nat) : State :=
  placeInstr s (BitVec.ofNat 64 (w % 2 ^ nbits))

end Sys2Proof.Machine
end

