-- ==== Sys2Proof/Machine/AsmText.lean ====
section
/-! DEFINITION. The assembler's text: characters, comments (R262), names, numbers (R259), escapes (R261), and the
reasons an assembly stops. The assembler is no part of the machine: it only makes the bytes of an image
(spec/48_pseudo_and_assembler.md). Where the spec is silent on what it does (R263), it stops by name (logs 26 to
31). -/

namespace Sys2Proof.Asm

/-- Source text, one character after the other. -/
abbrev Text := List Char

/-- Why an assembly stops. -/
inductive AsmError where
  /-- the line or the expression is not of a form the spec shows (R250 to R262) -/
  | syntaxError (text : Text)
  /-- a numeral or a character literal that is none of R259 -/
  | badNumber (text : Text)
  /-- a name that nothing defines, on pass 2; R260 states pass 1 only, log 29 -/
  | undefinedSymbol (name : Text)
  /-- a label or an `equ` constant defined again: an `equ` constant is immutable (R252) -/
  | redefined (name : Text)
  /-- a label whose address is not the same on both passes; not stated, log 29 -/
  | labelMoved (name : Text)
  /-- a division by zero or a shift count outside 0 to 63; not stated, log 27 -/
  | unstatedArithmetic
  /-- a value that does not fit its field; not stated (R263), log 26 -/
  | outOfRange (value : Int)
  /-- a size suffix on an instruction that has none, or an unknown one; not stated (R263), log 26 -/
  | badSize (text : Text)
  /-- no instruction, directive or macro has this name (R251, R252) -/
  | unknownMnemonic (text : Text)
  /-- code, data or a label before any `org`; not stated, log 30 -/
  | noOrigin
  /-- a file that does not exist, or a part of it that does not; not stated, log 30 -/
  | noFile (name : Text)
  /-- a source file that includes itself: "circular inclusion detection" (R252) -/
  | circularInclude (name : Text)
  /-- "Expansion depth is limited to 100 levels" (R254); that a deeper one stops the assembly, log 28 -/
  | macroDepth
  /-- an invocation with more than 9 arguments: "Up to 9 parameters are supported" (R254), and what more do is not
  stated, log 28 -/
  | tooManyArguments
  /-- a block that is not closed, or a closing word with no block (R254, R256, R257); not stated, log 28 -/
  | unbalanced (text : Text)
  /-- the bound on the number of lines, which the caller gives, is used up (log 30) -/
  | tooManyLines
deriving DecidableEq, Repr

/-- What an assembly function answers. -/
abbrev Answer := Except AsmError

/-! ## Characters -/

/-- A blank. Which characters are blanks is not stated. DESIGN CHOICE: the space, the tab and the carriage return
(log 31). -/
def isBlank (c : Char) : Bool := c == ' ' || c == '\t' || c == '\r'

/-- `0` to `9`. -/
def isDigit (c : Char) : Bool := '0'.toNat ≤ c.toNat && c.toNat ≤ '9'.toNat

/-- A letter. -/
def isLetter (c : Char) : Bool :=
  ('a'.toNat ≤ c.toNat && c.toNat ≤ 'z'.toNat) || ('A'.toNat ≤ c.toNat && c.toNat ≤ 'Z'.toNat)

/-- A character a name may begin with; a local label begins with a dot (R253, log 28). -/
def startsName (c : Char) : Bool := isLetter c || c == '_' || c == '.'

/-- A character of a name (log 28). -/
def inName (c : Char) : Bool := startsName c || isDigit c

/-- The small letter of a capital one. -/
def lowerChar (c : Char) : Char :=
  if 'A'.toNat ≤ c.toNat && c.toNat ≤ 'Z'.toNat then Char.ofNat (c.toNat + 32) else c

/-- Mnemonics, registers and directives are case-insensitive (R250). -/
def lower (t : Text) : Text := t.map lowerChar

/-- Without the blanks at both ends. -/
def trim (t : Text) : Text := ((t.dropWhile isBlank).reverse.dropWhile isBlank).reverse

/-- The decimal numeral of a count below 10. -/
def digitOf (n : Nat) : Char := Char.ofNat ('0'.toNat + n)

/-! ## Lines, comments, lists of operands -/

/-- Put a character before the first of some texts. -/
def consFirst (c : Char) : List Text → List Text
  | w :: ws => (c :: w) :: ws
  | [] => [[c]]

/-- The quote that is open after a character, if one is, and whether the next character is escaped. DESIGN CHOICE: a
backslash inside quotes keeps the next character from closing them, and a quote that nothing closes reaches to the end
of the line (log 31). -/
def nextQuote (q : Option Char) (escaped : Bool) (c : Char) : Option Char × Bool :=
  match q with
  | some q' => if escaped then (q, false) else if c == '\\' then (q, true) else (if c == q' then none else q, false)
  | none => (if c == '"' || c == '\'' then some c else none, false)

/-- Split at a separator that stands outside quotes; `q` is the quote that is open. -/
def splitOutside (sep : Char → Bool) (q : Option Char) (escaped : Bool) : Text → List Text
  | [] => [[]]
  | c :: rest =>
    if q == none && sep c then [] :: splitOutside sep none false rest
    else consFirst c (splitOutside sep (nextQuote q escaped c).1 (nextQuote q escaped c).2 rest)

/-- Comments "begin with `;` and extend to the end of the line", but not inside quotes (R262). -/
def stripComment (t : Text) : Text := (splitOutside (· == ';') none false t).headD []

/-- Operands are separated by commas (R250); no text is no operand. -/
def operandsOf (t : Text) : List Text :=
  if trim t == [] then [] else (splitOutside (· == ',') none false t).map trim

/-- The lines of a text: a line feed ends a line, also inside quotes (log 31). -/
def linesOf : Text → List Text
  | [] => [[]]
  | c :: rest => if c == '\n' then [] :: linesOf rest else consFirst c (linesOf rest)

/-- The first word of a line and what follows it. DESIGN CHOICE: a blank ends a word and nothing else does (log 31). -/
def firstWord (t : Text) : Text × Text := (t.takeWhile (!isBlank ·), trim (t.dropWhile (!isBlank ·)))

/-! ## Numbers and characters (R259, R261) -/

/-- The value of a digit; `none` for any other character. R259 shows hexadecimal digits in capitals only. DESIGN
CHOICE: small letters are accepted as well (log 31). -/
def digitValue (c : Char) : Option Nat :=
  if isDigit c then some (c.toNat - '0'.toNat)
  else if 'a'.toNat ≤ (lowerChar c).toNat && (lowerChar c).toNat ≤ 'f'.toNat then
    some ((lowerChar c).toNat - 'a'.toNat + 10)
  else none

/-- The value of digits in a base, most significant first; underscores are ignored (R259). -/
def digitsValue (base : Nat) (acc : Nat) : Text → Option Nat
  | [] => some acc
  | c :: rest =>
    if c == '_' then digitsValue base acc rest
    else
      match digitValue c with
      | some d => if d < base then digitsValue base (acc * base + d) rest else none
      | none => none

/-- A numeral without its prefix, as a 64-bit value; it holds a digit and fits 64 bits (log 26). -/
def numeral (base : Nat) (t : Text) : Answer Word :=
  match digitsValue base 0 t with
  | some n => if (t.any (· != '_')) && n < 2 ^ 64 then .ok (BitVec.ofNat 64 n) else .error (.badNumber t)
  | none => .error (.badNumber t)

/-- Decimal, `$` hexadecimal or `0x` hexadecimal (R259). A capital `0X` is not stated. DESIGN CHOICE: it is accepted
as `0x` is (log 31). -/
def number (t : Text) : Answer Word :=
  match t with
  | '$' :: rest => numeral 16 rest
  | '0' :: 'x' :: rest => numeral 16 rest
  | '0' :: 'X' :: rest => numeral 16 rest
  | _ => numeral 10 t

/-- The characters of R261, each for the letter after the backslash. -/
def escape (c : Char) : Option Nat :=
  match c with
  | 'n' => some 0x0A
  | 't' => some 0x09
  | 'r' => some 0x0D
  | '\\' => some 0x5C
  | '0' => some 0x00
  | '"' => some 0x22
  | _ => none

/-- The ASCII values of a quoted text with its escapes (R259, R261). Other escapes, characters that are not ASCII and a
double quote without a backslash are not stated. DESIGN CHOICE: they stop the assembly (log 30). -/
def quotedBytes : Text → Option (List Byte)
  | [] => some []
  | '\\' :: c :: rest => do
    let n ← escape c
    let bs ← quotedBytes rest
    pure (BitVec.ofNat 8 n :: bs)
  | c :: rest =>
    if c == '\\' || c == '"' || c.toNat ≥ 128 then none
    else do
      let bs ← quotedBytes rest
      pure (BitVec.ofNat 8 c.toNat :: bs)

/-- The inside of a text in double quotes, as it stands: a file name has no escapes (log 30). -/
def insideQuotes (t : Text) : Option Text :=
  match t with
  | '"' :: rest => if rest.getLast? == some '"' then some rest.dropLast else none
  | _ => none

end Sys2Proof.Asm
end

