-- ==== Sys2Proof/Machine/AsmExpr.lean ====
section
/-! DEFINITION. The assembler's expressions: 64-bit signed integers, eight levels of precedence (R258), the numbers of
R259 and the names that stand for values (R260). -/

namespace Sys2Proof.Asm

/-- The binary operators (R258). -/
inductive BinOp where
  | eq | ne | lt | gt | le | ge | or | xor | and | shl | shr | add | sub | mul | div
deriving DecidableEq, Repr

/-- The precedence levels, 1 lowest (R258). -/
def BinOp.level : BinOp → Nat
  | .eq | .ne | .lt | .gt | .le | .ge => 1
  | .or => 2
  | .xor => 3
  | .and => 4
  | .shl | .shr => 5
  | .add | .sub => 6
  | .mul | .div => 7

/-- The tokens of an expression. -/
inductive Token where
  | value (v : Word)
  | name (n : Text)
  | op (o : BinOp)
  | tilde | open | close
deriving DecidableEq, Repr

/-- An expression. -/
inductive Expr where
  | value (v : Word)
  | name (n : Text)
  | bin (o : BinOp) (a b : Expr)
  | negate (a : Expr)
  | complement (a : Expr)
deriving DecidableEq, Repr

/-! ## Tokens -/

/-- A token of one or two characters, and what follows it (R258). -/
def symbolToken (t : Text) : Option (Token × Text) :=
  match t with
  | '=' :: '=' :: r => some (.op .eq, r)
  | '!' :: '=' :: r => some (.op .ne, r)
  | '<' :: '=' :: r => some (.op .le, r)
  | '>' :: '=' :: r => some (.op .ge, r)
  | '<' :: '<' :: r => some (.op .shl, r)
  | '>' :: '>' :: r => some (.op .shr, r)
  | '<' :: r => some (.op .lt, r)
  | '>' :: r => some (.op .gt, r)
  | '|' :: r => some (.op .or, r)
  | '^' :: r => some (.op .xor, r)
  | '&' :: r => some (.op .and, r)
  | '+' :: r => some (.op .add, r)
  | '-' :: r => some (.op .sub, r)
  | '*' :: r => some (.op .mul, r)
  | '/' :: r => some (.op .div, r)
  | '~' :: r => some (.tilde, r)
  | '(' :: r => some (.open, r)
  | ')' :: r => some (.close, r)
  | _ => none

/-- A character literal: one character or one escape in single quotes, its ASCII value (R259, R261). DESIGN
CHOICE: a quote between two quotes is that character, and an escape R261 does not list stops the assembly (log 30). -/
def charLiteral (t : Text) : Option (Word × Text) :=
  match t with
  | '\'' :: '\\' :: c :: '\'' :: r => (escape c).map fun n => (BitVec.ofNat 64 n, r)
  | '\'' :: c :: '\'' :: r => if c.toNat < 128 && c != '\\' then some (BitVec.ofNat 64 c.toNat, r) else none
  | _ => none

/-- The first token of a text that does not begin with a blank, and what follows it. -/
def firstToken (t : Text) : Answer (Token × Text) :=
  match t with
  | [] => .error (.syntaxError t)
  | c :: rest =>
    if isDigit c || c == '$' then do
      let v ← number (c :: rest.takeWhile inName)
      pure (.value v, rest.dropWhile inName)
    else if startsName c then .ok (.name (t.takeWhile inName), t.dropWhile inName)
    else if c == '\'' then
      match charLiteral t with
      | some (v, r) => .ok (.value v, r)
      | none => .error (.badNumber t)
    else
      match symbolToken t with
      | some p => .ok p
      | none => .error (.syntaxError t)

/-- The tokens of a text; `fuel` is at least its length. -/
def tokens (fuel : Nat) (t : Text) : Answer (List Token) :=
  match fuel with
  | 0 => .ok []
  | fuel + 1 =>
    match t.dropWhile isBlank with
    | [] => .ok []
    | c :: rest => do
      let (k, r) ← firstToken (c :: rest)
      let ks ← tokens fuel r
      pure (k :: ks)

/-! ## Parsing -/

mutual

/-- Parse an expression whose operators are of level `level` or above: level 8 is the unary operators, numbers, names
and parentheses (R258). `fuel` bounds the depth. -/
def parseAt (fuel level : Nat) (ks : List Token) : Answer (Expr × List Token) :=
  match fuel with
  | 0 => .error (.syntaxError [])
  | fuel + 1 =>
    if level < 8 then do
      let (e, r) ← parseAt fuel (level + 1) ks
      parseMore fuel level e r
    else
      match ks with
      | .value v :: r => .ok (.value v, r)
      | .name n :: r => .ok (.name n, r)
      | .op .sub :: r => do
        let (e, r) ← parseAt fuel 8 r
        pure (.negate e, r)
      | .op .add :: r => parseAt fuel 8 r
      | .tilde :: r => do
        let (e, r) ← parseAt fuel 8 r
        pure (.complement e, r)
      | .open :: r => do
        let (e, r) ← parseAt fuel 1 r
        match r with
        | .close :: r => .ok (e, r)
        | _ => .error (.syntaxError [])
      | _ => .error (.syntaxError [])

/-- The operators of a level associate to the left (log 27). -/
def parseMore (fuel level : Nat) (e : Expr) (ks : List Token) : Answer (Expr × List Token) :=
  match fuel with
  | 0 => .error (.syntaxError [])
  | fuel + 1 =>
    match ks with
    | .op o :: r =>
      if o.level = level then do
        let (e', r) ← parseAt fuel (level + 1) r
        parseMore fuel level (.bin o e e') r
      else .ok (e, ks)
    | _ => .ok (e, ks)

end

/-- The expression that a whole text is. -/
def parseExpr (t : Text) : Answer Expr := do
  let ks ← tokens (t.length + 1) t
  let (e, r) ← parseAt (10 * (ks.length + 1)) 1 ks
  if r = [] then pure e else .error (.syntaxError t)

/-! ## Evaluation -/

/-- 1 for true, 0 for false (R258). -/
def truth (b : Bool) : Word := if b then 1#64 else 0#64

/-- A shift count of 0 to 63; others are not stated (log 27). -/
def shiftable (b : Word) : Bool := b.toNat < 64

/-- The value of a binary operator on 64-bit signed integers (R258); `none` where no value is stated (log 27). -/
def BinOp.apply (o : BinOp) (a b : Word) : Option Word :=
  match o with
  | .eq => some (truth (a.toInt = b.toInt))
  | .ne => some (truth (a.toInt ≠ b.toInt))
  | .lt => some (truth (a.toInt < b.toInt))
  | .gt => some (truth (a.toInt > b.toInt))
  | .le => some (truth (a.toInt ≤ b.toInt))
  | .ge => some (truth (a.toInt ≥ b.toInt))
  | .or => some (a ||| b)
  | .xor => some (a ^^^ b)
  | .and => some (a &&& b)
  | .shl => if shiftable b then some (a <<< b.toNat) else none
  | .shr => if shiftable b then some (a.sshiftRight b.toNat) else none
  | .add => some (a + b)
  | .sub => some (a - b)
  | .mul => some (a * b)
  | .div => if b = 0#64 then none else some (BitVec.ofInt 64 (a.toInt.tdiv b.toInt))

/-- What the evaluation of an expression depends on: the values of the names, and whether this is pass 2. -/
structure Lookup where
  value : Text → Option Word
  final : Bool

/-- The value of an expression. On pass 1 a name without a value stands for 0 (R260), and so does a value that is not
stated, since it may come of such a name. DESIGN CHOICE: on pass 2 such a name stops the assembly (log 29), and so does
a value that is not stated (log 27). -/
def Expr.eval (env : Lookup) : Expr → Answer Word
  | .value v => .ok v
  | .name n =>
    match env.value n with
    | some v => .ok v
    | none => if env.final then .error (.undefinedSymbol n) else .ok 0#64
  | .bin o a b => do
    let x ← a.eval env
    let y ← b.eval env
    match o.apply x y with
    | some v => .ok v
    | none => if env.final then .error .unstatedArithmetic else .ok 0#64
  | .negate a => do
    let x ← a.eval env
    pure (0#64 - x)
  | .complement a => do
    let x ← a.eval env
    pure (~~~x)

/-- The value of a text. -/
def evalText (env : Lookup) (t : Text) : Answer Word := do
  let e ← parseExpr t
  e.eval env

/-- A value of a field that holds the integers from `lo` to `hi`; checked on pass 2, when every name has its value
(log 26). -/
def fit (env : Lookup) (lo hi : Int) (v : Word) : Answer Word :=
  if env.final && (v.toInt < lo || hi < v.toInt) then .error (.outOfRange v.toInt) else .ok v

end Sys2Proof.Asm
end

