-- ==== Sys2Proof/Machine/AsmInstr.lean ====
section
/-! DEFINITION. The syntax of every instruction (R250, R251) and the pseudo-instructions (R240 to R248): from a line's
mnemonic and operands to the instructions it stands for. -/

namespace Sys2Proof.Asm

/-! ## Pseudo-instructions: the expansions (R240) -/

/-- `li Rd, #value` (R242): one MOVE.L for a value in 0 .. 0xFFFFFFFF, else MOVE.L of the low half and MOVT of the
high half. -/
def expandLi (rd : RegId) (v : Word) : List Instr :=
  if v.toNat ≤ 0xFFFFFFFF then [.move .l rd (.imm (v.extractLsb' 0 32))]
  else [.move .l rd (.imm (v.extractLsb' 0 32)), .movt rd (v.extractLsb' 32 32)]

/-- `la Rd, addr` is `lea Rd, addr(r0)` (R241). -/
def expandLa (rd : RegId) (addr : Imm) : List Instr :=
  [.lea rd 0#5 addr]

/-- `beqz`, `bnez`, `bltz`, `bgez`, `bgtz`, `blez` are the branch of Rs and R0 (R243 to R248). -/
def expandZeroBranch (branch : RegId → RegId → Imm → Instr) (rs : RegId) (off : Imm) : List Instr :=
  [branch rs 0#5 off]

/-! ## Operands -/

/-- `r0` to `r31`, and `sp` for R31 (R250). How `sp` is spelled in every position is not stated (R263). DESIGN CHOICE:
`sp`, in capital or small letters, stands for R31 wherever a register may stand, and a register's number has no
leading zero (log 26). -/
def register (t : Text) : Option RegId :=
  match lower t with
  | ['s', 'p'] => some 31#5
  | ['r', d] => if isDigit d then some (BitVec.ofNat 5 (d.toNat - '0'.toNat)) else none
  | ['r', d, e] =>
    if isDigit d && isDigit e && d != '0' && (d.toNat - '0'.toNat) * 10 + (e.toNat - '0'.toNat) ≤ 31 then
      some (BitVec.ofNat 5 ((d.toNat - '0'.toNat) * 10 + (e.toNat - '0'.toNat)))
    else none
  | _ => none

/-- An operand that is a register. -/
def asReg (t : Text) : Answer RegId :=
  match register t with
  | some r => .ok r
  | none => .error (.syntaxError t)

/-- An operand `#value`. -/
def asValue (env : Lookup) (t : Text) : Answer Word :=
  match t with
  | '#' :: rest => evalText env rest
  | _ => .error (.syntaxError t)

/-- An operand `#imm` of a zero-extending field, of WAIT or of MOVT: 0 to 2^32 - 1 (log 26). -/
def asImm (env : Lookup) (t : Text) : Answer Imm := do
  let v ← asValue env t
  let v ← fit env 0 0xFFFFFFFF v
  pure (v.setWidth 32)

/-- A value of a sign-extending field: -2^31 to 2^31 - 1, or the same 32 bits written unsigned, as in
`moveq r5, #$80000000` and `la` of an address from 0x80000000 on (R241, R249; log 26). -/
def signedField (env : Lookup) (v : Word) : Answer Imm := do
  let v ← fit env (-0x80000000) 0xFFFFFFFF v
  pure (v.setWidth 32)

/-- The third operand: a register, or `#imm` (R250). -/
def asOperand3 (env : Lookup) (t : Text) : Answer Operand3 :=
  match register t with
  | some r => .ok (.reg r)
  | none => do
    let v ← asImm env t
    pure (.imm v)

/-- MOVE's source: a register, or `#imm` (R251). -/
def asMoveSource (env : Lookup) (t : Text) : Answer MoveSource :=
  match register t with
  | some r => .ok (.reg r)
  | none => do
    let v ← asImm env t
    pure (.imm v)

/-- `disp(Rs)`: the first parenthesis opens the register, so a displacement cannot hold one (R241, R250). Blanks inside
it are not stated. DESIGN CHOICE: they are accepted before the parenthesis and inside the parentheses, as in
`4 ( r2 )` (log 31). Answers the text before it and the register. -/
def splitMem (t : Text) : Answer (Text × RegId) :=
  match t.dropWhile (· != '(') with
  | '(' :: rest =>
    if rest.getLast? = some ')' then do
      let r ← asReg (trim rest.dropLast)
      pure (trim (t.takeWhile (· != '(')), r)
    else .error (.syntaxError t)
  | _ => .error (.syntaxError t)

/-- An operand `disp(Rs)`. -/
def asDisp (env : Lookup) (t : Text) : Answer (RegId × Imm) := do
  let (d, r) ← splitMem t
  let v ← evalText env d
  let d ← signedField env v
  pure (r, d)

/-- An operand `(Rs)` or `disp(Rs)`, of LOAD and STORE (R251). -/
def asMem (env : Lookup) (t : Text) : Answer (RegId × Imm) := do
  let (d, r) ← splitMem t
  if d = [] then pure (r, 0#32) else asDisp env t

/-- A branch target: "The assembler computes the offset as `target_address - current_PC`" (R251); the offset fits 32
bits, and the target may be any expression, not a label alone (DESIGN CHOICE, log 26). -/
def asTarget (env : Lookup) (pc : Word) (t : Text) : Answer Imm := do
  let v ← evalText env t
  let off ← fit env (-0x80000000) 0x7FFFFFFF (v - pc)
  pure (off.setWidth 32)

/-! ## Sizes and mnemonics -/

/-- A mnemonic and its suffix: `move.q` is `move` and `q`. -/
def splitSuffix (t : Text) : Text × Option Text :=
  match t.dropWhile (· != '.') with
  | [] => (t, none)
  | _ :: s => (t.takeWhile (· != '.'), some s)

/-- The size of a suffix; without one it is `.Q` (R250). DESIGN CHOICE: any other suffix stops the assembly (log 26). -/
def sizeOf (s : Option Text) : Answer Size :=
  match s with
  | none => .ok .q
  | some ['b'] => .ok .b
  | some ['w'] => .ok .w
  | some ['l'] => .ok .l
  | some ['q'] => .ok .q
  | some t => .error (.badSize t)

/-- An instruction or pseudo-instruction that takes no size suffix (R240, R251). A suffix there is not stated (R263).
DESIGN CHOICE: it stops the assembly (log 26). -/
def unsized (s : Option Text) : Answer Unit :=
  match s with
  | none => .ok ()
  | some t => .error (.badSize t)

/-- The three-operand instructions (R251). -/
def alu3 (name : String) : Option (Size → RegId → RegId → Operand3 → Instr) :=
  match name with
  | "add" => some .add
  | "sub" => some .sub
  | "mulu" => some .mulu
  | "muls" => some .muls
  | "divu" => some .divu
  | "divs" => some .divs
  | "mod" => some .mod
  | "and" => some .and
  | "or" => some .or
  | "eor" => some .eor
  | "lsl" => some .lsl
  | "lsr" => some .lsr
  | "asr" => some .asr
  | _ => none

/-- The conditional branches (R251). -/
def bcc (name : String) : Option (RegId → RegId → Imm → Instr) :=
  match name with
  | "beq" => some .beq
  | "bne" => some .bne
  | "blt" => some .blt
  | "bge" => some .bge
  | "bgt" => some .bgt
  | "ble" => some .ble
  | "bhi" => some .bhi
  | "bls" => some .bls
  | _ => none

/-- The branches of the zero-comparison pseudo-instructions (R240). -/
def zeroBranch (name : String) : Option (RegId → RegId → Imm → Instr) :=
  match name with
  | "beqz" => some .beq
  | "bnez" => some .bne
  | "bltz" => some .blt
  | "bgez" => some .bge
  | "bgtz" => some .bgt
  | "blez" => some .ble
  | _ => none

/-- The instructions without operands (R251). -/
def plain (name : String) : Option Instr :=
  match name with
  | "rts" => some .rts
  | "nop" => some .nop
  | "halt" => some .halt
  | "sei" => some .sei
  | "cli" => some .cli
  | "rti" => some .rti
  | _ => none

/-- The sized instructions other than the three-operand ones (R251). -/
def sizedInstr (env : Lookup) (name : String) (sz : Size) (ops : List Text) : Answer (List Instr) :=
  match name, ops with
  | "move", [d, s] => do
    let rd ← asReg d
    let src ← asMoveSource env s
    pure [.move sz rd src]
  | "load", [d, m] => do
    let rd ← asReg d
    let (rs, disp) ← asMem env m
    pure [.load sz rd rs disp]
  | "store", [d, m] => do
    let rd ← asReg d
    let (rs, disp) ← asMem env m
    pure [.store sz rd rs disp]
  | "neg", [d, s] => do
    let rd ← asReg d
    let rs ← asReg s
    pure [.neg sz rd rs]
  | "not", [d, s] => do
    let rd ← asReg d
    let rs ← asReg s
    pure [.not sz rd rs]
  | _, _ => .error (.syntaxError name.toList)

/-- The instructions and pseudo-instructions without a size, other than branches on two registers (R240, R251). The
range of MOVT's `#imm` is not stated. DESIGN CHOICE: 0 to 2^32 - 1, so a negative one stops the assembly (log 26). -/
def unsizedInstr (env : Lookup) (pc : Word) (name : String) (ops : List Text) : Answer (List Instr) :=
  match name, ops with
  | "movt", [d, i] => do
    let rd ← asReg d
    let v ← asImm env i
    pure [.movt rd v]
  | "moveq", [d, i] => do
    let rd ← asReg d
    let v ← asValue env i
    let v ← signedField env v
    pure [.moveq rd v]
  | "lea", [d, m] => do
    let rd ← asReg d
    let (rs, disp) ← asDisp env m
    pure [.lea rd rs disp]
  | "la", [d, a] => do
    let rd ← asReg d
    let (_, disp) ← asDisp env (a ++ ['(', 'r', '0', ')'])
    pure (expandLa rd disp)
  | "li", [d, i] => do
    let rd ← asReg d
    let v ← asValue env i
    pure (expandLi rd v)
  | "bra", [l] => do
    let off ← asTarget env pc l
    pure [.bra off]
  | "jsr", [l] => do
    let off ← asTarget env pc l
    pure [.jsr off]
  | "push", [r] => do
    let rs ← asReg r
    pure [.push rs]
  | "pop", [r] => do
    let rd ← asReg r
    pure [.pop rd]
  | "wait", [i] => do
    let v ← asImm env i
    pure [.wait v]
  | _, _ => .error (.syntaxError name.toList)

/-- The names `sizedInstr` knows. -/
def sizedNames : List String := ["move", "load", "store", "neg", "not"]

/-- The names `unsizedInstr` knows. -/
def unsizedNames : List String := ["movt", "moveq", "lea", "la", "li", "bra", "jsr", "push", "pop", "wait"]

/-- The instructions a line stands for: its mnemonic in small letters, the address it stands at, its operands. -/
def instructions (env : Lookup) (pc : Word) (mnemonic : Text) (ops : List Text) : Answer (List Instr) :=
  let name := String.ofList (splitSuffix mnemonic).1
  let suffix := (splitSuffix mnemonic).2
  match alu3 name, bcc name, zeroBranch name, plain name with
  | some make, _, _, _ => do
    let sz ← sizeOf suffix
    match ops with
    | [d, a, b] => do
      let rd ← asReg d
      let rs ← asReg a
      let op ← asOperand3 env b
      pure [make sz rd rs op]
    | _ => .error (.syntaxError mnemonic)
  | none, some make, _, _ => do
    unsized suffix
    match ops with
    | [a, b, l] => do
      let rs ← asReg a
      let rt ← asReg b
      let off ← asTarget env pc l
      pure [make rs rt off]
    | _ => .error (.syntaxError mnemonic)
  | none, none, some make, _ => do
    unsized suffix
    match ops with
    | [a, l] => do
      let rs ← asReg a
      let off ← asTarget env pc l
      pure (expandZeroBranch make rs off)
    | _ => .error (.syntaxError mnemonic)
  | none, none, none, some i => do
    unsized suffix
    if ops = [] then pure [i] else .error (.syntaxError mnemonic)
  | none, none, none, none =>
    if sizedNames.contains name then do
      let sz ← sizeOf suffix
      sizedInstr env name sz ops
    else if unsizedNames.contains name then do
      unsized suffix
      unsizedInstr env pc name ops
    else .error (.unknownMnemonic mnemonic)

end Sys2Proof.Asm
end

