-- ==== Sys2Proof/Safety.lean ====
section
/-! DEFINITION. The terms in which claims speak of the machine: the invariant of its states, what a step leaves
unchanged, and what a safe run is. -/

namespace Sys2Proof.Machine

/-! ## The invariant -/

/-- `timerState` holds one of its three legal values (R46). -/
abbrev timerStateLegal (v : BitVec 32) : Prop :=
  v = Config.timerStopped ∨ v = Config.timerRunning ∨ v = Config.timerExpired

/-- The event is of an access that touches a byte outside RAM (R64, R69, R70). -/
def eventOutsideRam (p : Parameters) : BusEvent → Bool
  | .read a n => touchesPlatform p a n
  | .write a n _ => touchesPlatform p a n
  | .fetch a => touchesPlatform p a 8

/-- A state a run from reset can be in: memory in its canonical form, R0's element 0 (R31), the cycle counter below
`SAMPLE_RATE` (R48, R286), a legal timer state (R46), and only accesses outside RAM delivered to the platform. -/
abbrev State.Wf (s : State) : Prop :=
  Memory.wf s.parameters s.mem ∧ s.regs[0] = 0#64 ∧ s.cycleCounter < Config.sampleRate ∧ timerStateLegal s.timerState ∧
    ∀ e ∈ s.busEvents, eventOutsideRam s.parameters e = true

/-! ## What is left unchanged -/

/-- The timer fields and the cycle counter are unchanged (R44 to R48). -/
def SameTimer (s t : State) : Prop :=
  t.timerEnabled = s.timerEnabled ∧ t.timerState = s.timerState ∧ t.timerCount = s.timerCount ∧
    t.timerPeriod = s.timerPeriod ∧ t.cycleCounter = s.cycleCounter

/-- Every control field is unchanged (R41 to R49), and so are the parameters of memory (R6). -/
def SameControl (s t : State) : Prop :=
  t.interruptEnabled = s.interruptEnabled ∧ t.inInterrupt = s.inInterrupt ∧
    t.interruptVector = s.interruptVector ∧ t.running = s.running ∧ SameTimer s t ∧
    t.parameters = s.parameters

/-- Every general register is unchanged. -/
def SameRegs (s t : State) : Prop :=
  ∀ r, readReg t r = readReg s r

/-- Every byte reads as before, and the platform has seen nothing. -/
def SameBytes (s t : State) : Prop :=
  (∀ a, readByte t a = readByte s a) ∧ t.busEvents = s.busEvents

/-- Register `rd` holds `v`, unless it is R0, which discards the write; every other register is unchanged (R11,
R31). -/
def OnlyRegWritten (s t : State) (rd : RegId) (v : Word) : Prop :=
  ∀ r, readReg t r = if r = rd ∧ rd ≠ 0#5 then v else readReg s r

/-- The whole effect of an instruction that only writes `v` into Rd: the PC advances, nothing else changes. -/
def RegisterEffect (s t : State) (rd : RegId) (v : Word) : Prop :=
  OnlyRegWritten s t rd v ∧ t.pc = s.pc + 8#64 ∧ SameControl s t ∧ SameBytes s t

/-- The whole effect of an instruction that only sets the PC. -/
def JumpEffect (s t : State) (target : Word) : Prop :=
  t.pc = target ∧ SameRegs s t ∧ SameControl s t ∧ SameBytes s t

/-- The effect of a data read of `n` bytes at `a` on memory and platform: every RAM byte reads as before; if all
`n` bytes are RAM then every byte does and no event is sent; else the platform has seen this one read (R69, R77). -/
def ReadAccess (s t : State) (a : Addr) (n : Nat) : Prop :=
  (∀ b, isRam s.parameters b = true → readByte t b = readByte s b) ∧
    (touchesPlatform s.parameters a.toNat n = false → SameBytes s t) ∧
    (touchesPlatform s.parameters a.toNat n = true → t.busEvents = .read a.toNat n :: s.busEvents)

/-- The effect of a data write of the low `8n` bits of `v` at `a`: the RAM bytes from `a` to `a + n - 1` read as the
bytes of `v`, little-endian; every RAM byte outside them reads as before; if all `n` bytes are RAM then every byte
outside them reads as before and no event is sent; else the platform has seen this one write (R70, R77). -/
def WriteAccess (s t : State) (a : Addr) (n : Nat) (v : Word) : Prop :=
  (∀ k, k < n → isRam s.parameters (a.toNat + k) = true → readByte t (a.toNat + k) = v.extractLsb' (8 * k) 8) ∧
    (∀ b, isRam s.parameters b = true → (b < a.toNat ∨ a.toNat + n ≤ b) → readByte t b = readByte s b) ∧
    (touchesPlatform s.parameters a.toNat n = false → t.busEvents = s.busEvents ∧
      ∀ b, (b < a.toNat ∨ a.toNat + n ≤ b) → readByte t b = readByte s b) ∧
    (touchesPlatform s.parameters a.toNat n = true → t.busEvents = .write a.toNat n v :: s.busEvents)

/-! ## Runs -/

/-- `t` is reached from `s` in some number of instruction cycles. -/
inductive Reaches : State → State → Prop where
  | refl (s : State) : Reaches s s
  | step {s t u : State} (h : Sys2Proof.Machine.step s = .next t) (rest : Reaches t u) : Reaches s u

/-- The run from `s` ends normally: a HALT has executed (R330 (a)). -/
def EndsNormally (s : State) : Prop :=
  ∃ t, Reaches s t ∧ t.running = false

/-- The run from `s` is safe: every state it reaches that is still running has a next state. -/
def SafeRun (s : State) : Prop :=
  ∀ t, Reaches s t → t.running = true → ∃ u, Sys2Proof.Machine.step t = .next u

/-- Instructions executed one after the other, with nothing between them. -/
def execAll : List Instr → State → Result
  | [], s => .next s
  | i :: rest, s => andThen (exec i s) (execAll rest)

/-- `k` timer ticks in a row (R286). -/
def ticks : Nat → State → Result
  | 0, s => .next s
  | k + 1, s => andThen (timerTick s) (ticks k)

end Sys2Proof.Machine
end

