-- ==== Sys2Proof/Certificates/Slice0/Obligations.lean ====
section
/-! DEFINITION. The statements for the provers. Each says what a rule of spec/ says of the machine; the words used
(`RegisterEffect`, `JumpEffect`, `ReadAccess`, `WriteAccess`, `SameControl`, …) are those of Sys2Proof/Safety.lean. -/

open Sys2Proof Sys2Proof.Machine

/-! ## Encoding -/

/-- Decoding undoes encoding, for every instruction and every operand (R103, R104, R110, R115), whatever bytes
follow. Every term of `Instr` is well formed. -/
def Obligations.EncodeThenDecodeGivesInstruction : Prop :=
  ∀ (i : Instr) (rest : List Byte), decode (encode i ++ rest) = .ok i

/-- A word decodes exactly when its opcode byte lies in one of the assigned ranges (R111). -/
def Obligations.DecoderAcceptsExactlyAssignedOpcodes : Prop :=
  ∀ w : Word, (decodeWord w).isSome = opcodeAssigned (w.extractLsb' 0 8)

/-- Two words that agree on the opcode byte and on the fields the form uses are the same instruction and execute the
same, whatever the other fields and the reserved bits contain (R113; the spec's decisions D1 and D2, log 18). -/
def Obligations.UnusedBitsHaveNoEffect : Prop :=
  ∀ w w' : Word, w &&& usedBits w = w' &&& usedBits w →
    decodeWord w' = decodeWord w ∧ ∀ s : State, runWord w' s = runWord w s

/-- The source's five encoded examples decode to the instructions they stand for (R116, and Appendix B of the
source in spec/95_test_vectors.md E1 to E5). -/
def Obligations.SourceExamplesDecode : Prop :=
  wordOfBytes [0x01, 0x2D, 0x00, 0x00, 0xBE, 0xBA, 0xFE, 0xCA] = 0xCAFEBABE00002D01#64 ∧
    fieldsOf 0xCAFEBABE00002D01#64 = ⟨0x01, 5, 2, 1, 0, 0, 0xCAFEBABE⟩ ∧
    decode [0x01, 0x2D, 0x00, 0x00, 0xBE, 0xBA, 0xFE, 0xCA] = .ok (.move .l 5 (.imm 0xCAFEBABE)) ∧
    decode [0x20, 0x1E, 0x08, 0x10, 0x00, 0x00, 0x00, 0x00] = .ok (.add .q 3 1 (.reg 2)) ∧
    decode [0x41, 0x06, 0x08, 0x10, 0x18, 0x00, 0x00, 0x00] = .ok (.beq 1 2 24) ∧
    decode [0x11, 0x39, 0x50, 0x00, 0x04, 0x00, 0x00, 0x00] = .ok (.store .b 7 10 4) ∧
    decode [0x52, 0x06, 0x78, 0x00, 0x00, 0x00, 0x00, 0x00] = .ok (.push 15)

/-- The opcode map, one clause per row: an opcode byte selects its instruction, with the fields of its form
(R110); an unassigned opcode byte selects none. -/
def Obligations.OpcodeMapSelectsInstruction : Prop :=
  ∀ f : Fields,
    (f.opcode = 0x01#8 → instrOfFields f = some (.move (sizeOfCode f.size) f.rd (moveSourceOf f))) ∧
    (f.opcode = 0x02#8 → instrOfFields f = some (.movt f.rd f.imm)) ∧
    (f.opcode = 0x03#8 → instrOfFields f = some (.moveq f.rd f.imm)) ∧
    (f.opcode = 0x04#8 → instrOfFields f = some (.lea f.rd f.rs f.imm)) ∧
    (f.opcode = 0x10#8 → instrOfFields f = some (.load (sizeOfCode f.size) f.rd f.rs f.imm)) ∧
    (f.opcode = 0x11#8 → instrOfFields f = some (.store (sizeOfCode f.size) f.rd f.rs f.imm)) ∧
    (f.opcode = 0x20#8 → instrOfFields f = some (.add (sizeOfCode f.size) f.rd f.rs (operand3Of f))) ∧
    (f.opcode = 0x21#8 → instrOfFields f = some (.sub (sizeOfCode f.size) f.rd f.rs (operand3Of f))) ∧
    (f.opcode = 0x22#8 → instrOfFields f = some (.mulu (sizeOfCode f.size) f.rd f.rs (operand3Of f))) ∧
    (f.opcode = 0x23#8 → instrOfFields f = some (.muls (sizeOfCode f.size) f.rd f.rs (operand3Of f))) ∧
    (f.opcode = 0x24#8 → instrOfFields f = some (.divu (sizeOfCode f.size) f.rd f.rs (operand3Of f))) ∧
    (f.opcode = 0x25#8 → instrOfFields f = some (.divs (sizeOfCode f.size) f.rd f.rs (operand3Of f))) ∧
    (f.opcode = 0x26#8 → instrOfFields f = some (.mod (sizeOfCode f.size) f.rd f.rs (operand3Of f))) ∧
    (f.opcode = 0x27#8 → instrOfFields f = some (.neg (sizeOfCode f.size) f.rd f.rs)) ∧
    (f.opcode = 0x30#8 → instrOfFields f = some (.and (sizeOfCode f.size) f.rd f.rs (operand3Of f))) ∧
    (f.opcode = 0x31#8 → instrOfFields f = some (.or (sizeOfCode f.size) f.rd f.rs (operand3Of f))) ∧
    (f.opcode = 0x32#8 → instrOfFields f = some (.eor (sizeOfCode f.size) f.rd f.rs (operand3Of f))) ∧
    (f.opcode = 0x33#8 → instrOfFields f = some (.not (sizeOfCode f.size) f.rd f.rs)) ∧
    (f.opcode = 0x34#8 → instrOfFields f = some (.lsl (sizeOfCode f.size) f.rd f.rs (operand3Of f))) ∧
    (f.opcode = 0x35#8 → instrOfFields f = some (.lsr (sizeOfCode f.size) f.rd f.rs (operand3Of f))) ∧
    (f.opcode = 0x36#8 → instrOfFields f = some (.asr (sizeOfCode f.size) f.rd f.rs (operand3Of f))) ∧
    (f.opcode = 0x40#8 → instrOfFields f = some (.bra f.imm)) ∧
    (f.opcode = 0x41#8 → instrOfFields f = some (.beq f.rs f.rt f.imm)) ∧
    (f.opcode = 0x42#8 → instrOfFields f = some (.bne f.rs f.rt f.imm)) ∧
    (f.opcode = 0x43#8 → instrOfFields f = some (.blt f.rs f.rt f.imm)) ∧
    (f.opcode = 0x44#8 → instrOfFields f = some (.bge f.rs f.rt f.imm)) ∧
    (f.opcode = 0x45#8 → instrOfFields f = some (.bgt f.rs f.rt f.imm)) ∧
    (f.opcode = 0x46#8 → instrOfFields f = some (.ble f.rs f.rt f.imm)) ∧
    (f.opcode = 0x47#8 → instrOfFields f = some (.bhi f.rs f.rt f.imm)) ∧
    (f.opcode = 0x48#8 → instrOfFields f = some (.bls f.rs f.rt f.imm)) ∧
    (f.opcode = 0x50#8 → instrOfFields f = some (.jsr f.imm)) ∧
    (f.opcode = 0x51#8 → instrOfFields f = some .rts) ∧
    (f.opcode = 0x52#8 → instrOfFields f = some (.push f.rs)) ∧
    (f.opcode = 0x53#8 → instrOfFields f = some (.pop f.rd)) ∧
    (f.opcode = 0xE0#8 → instrOfFields f = some .nop) ∧
    (f.opcode = 0xE1#8 → instrOfFields f = some .halt) ∧
    (f.opcode = 0xE2#8 → instrOfFields f = some .sei) ∧
    (f.opcode = 0xE3#8 → instrOfFields f = some .cli) ∧
    (f.opcode = 0xE4#8 → instrOfFields f = some .rti) ∧
    (f.opcode = 0xE5#8 → instrOfFields f = some (.wait f.imm)) ∧
    (opcodeAssigned f.opcode = false → instrOfFields f = none)

/-! ## Operands and registers -/

/-- An instruction that names R0 as its destination executes in full, with the read and the update of SP that go
with it, and only its result is dropped; reads of R0 give 0 (R31, in part the spec's own inference; of POP and LOAD
R224 and R151). LOAD and POP ask that their access be admitted; the address of POP's slot, the low 32 bits of SP, is
the spec's decision D10, log 14. -/
def Obligations.ResultsIntoR0AreDropped : Prop :=
  ∀ (s : State) (sz : Size) (rs : RegId) (op : Operand3) (src : MoveSource) (imm : Imm),
    readReg s 0#5 = 0#64 ∧
    (∀ i ∈ [Instr.move sz 0#5 src, .movt 0#5 imm, .moveq 0#5 imm, .lea 0#5 rs imm, .add sz 0#5 rs op, .sub sz 0#5 rs op,
        .mulu sz 0#5 rs op, .muls sz 0#5 rs op, .divu sz 0#5 rs op, .divs sz 0#5 rs op, .mod sz 0#5 rs op, .neg sz 0#5 rs,
        .and sz 0#5 rs op, .or sz 0#5 rs op, .eor sz 0#5 rs op, .not sz 0#5 rs, .lsl sz 0#5 rs op, .lsr sz 0#5 rs op,
        .asr sz 0#5 rs op], ∃ t, exec i s = .next t ∧ JumpEffect s t (s.pc + 8#64)) ∧
    ((effectiveAddr s rs imm).toNat + sizeBytes sz ≤ accessLimit s.parameters →
      ∃ t, exec (.load sz 0#5 rs imm) s = .next t ∧ t.pc = s.pc + 8#64 ∧ SameRegs s t ∧ SameControl s t ∧
        t.mem = s.mem ∧ ReadAccess s t (effectiveAddr s rs imm) (sizeBytes sz)) ∧
    ((stackAddr s).toNat + 8 ≤ accessLimit s.parameters →
      ∃ t, exec (.pop 0#5) s = .next t ∧ t.pc = s.pc + 8#64 ∧ OnlyRegWritten s t 31#5 (readReg s 31#5 + 8#64) ∧
        SameControl s t ∧ t.mem = s.mem ∧ ReadAccess s t (stackAddr s) 8)

/-- `mask_s(v)` is the remainder of `v` by 2 to the width of the size, and the size codes stand for 1, 2, 4 and 8
bytes (R10). -/
def Obligations.MaskKeepsTheLowBytes : Prop :=
  (∀ (sz : Size) (v : Word), (maskToSize sz v).toNat = v.toNat % 2 ^ (8 * sizeBytes sz)) ∧
    sizeBytes (sizeOfCode 0) = 1 ∧ sizeBytes (sizeOfCode 1) = 2 ∧ sizeBytes (sizeOfCode 2) = 4 ∧
    sizeBytes (sizeOfCode 3) = 8

/-- The third operand is register Rt when X = 0 and imm32 zero-extended when X = 1; MOVE's source is register Rs when
X = 0 and imm32 zero-extended when X = 1 (R14, R106). -/
def Obligations.XBitSelectsTheOperand : Prop :=
  ∀ (s : State) (f : Fields),
    (f.xbit = 0#1 → op3Value s (operand3Of f) = readReg s f.rt ∧
      moveSourceValue s (moveSourceOf f) = readReg s f.rs) ∧
    (f.xbit = 1#1 → (op3Value s (operand3Of f)).toNat = f.imm.toNat ∧
      (moveSourceValue s (moveSourceOf f)).toNat = f.imm.toNat)

/-- The effective address of LOAD and STORE is the base plus the signed displacement, reduced to 32 bits (R66). -/
def Obligations.EffectiveAddressIsTheSumModulo32Bits : Prop :=
  ∀ (s : State) (rs : RegId) (disp : Imm),
    ((effectiveAddr s rs disp).toNat : Int) = ((readReg s rs).toInt + disp.toInt) % 2 ^ 32

/-! ## Memory -/

/-- After an 8-byte write to plain RAM, its bytes, its 2-byte and its 4-byte parts read as the corresponding bits of
the value (R61, the spec's own inference from R60, R69 and R70), and the whole reads back. -/
def Obligations.NarrowReadsSeeTheWideWrite : Prop :=
  ∀ (s t : State) (a : Addr) (v : Word),
    memWrite s a 8 v = .next t → touchesPlatform s.parameters a.toNat 8 = false →
      (∀ k, k < 8 → memRead t (a + BitVec.ofNat 32 k) 1 = .next ((v.extractLsb' (8 * k) 8).setWidth 64, t)) ∧
      (∀ k, k < 4 → memRead t (a + BitVec.ofNat 32 (2 * k)) 2 =
        .next ((v.extractLsb' (16 * k) 16).setWidth 64, t)) ∧
      (∀ k, k < 2 → memRead t (a + BitVec.ofNat 32 (4 * k)) 4 =
        .next ((v.extractLsb' (32 * k) 32).setWidth 64, t)) ∧
      memRead t a 8 = .next (v, t)

/-- A STORE to the address of the next instruction is seen by its fetch, with nothing between them (R83; the spec's
decision D14, log 21). A fetch whose 8 bytes pass the top of the 25-bit space is another statement. -/
def Obligations.StoreIsSeenByTheNextFetch : Prop :=
  ∀ (s t : State) (rd rs : RegId) (disp : Imm),
    exec (.store .q rd rs disp) s = .next t →
    (effectiveAddr s rs disp).toNat = (s.pc.toNat + 8) % 2 ^ 25 → (s.pc.toNat + 8) % 2 ^ 25 + 8 ≤ 2 ^ 25 →
    touchesPlatform s.parameters (effectiveAddr s rs disp).toNat 8 = false →
      fetchInstr t = .next (readReg s rd, t)

/-! ## The step -/

/-- A step runs the decoded instruction: if the tick answers `s1` and the 8 bytes at `s1`'s masked PC decode to `i`,
the step is `exec i` of a state that differs from `s1` only in the fetch the platform may have seen (R16; that the
tick stands before the fetch is the spec's decision D18, log 9, that the PC itself is not masked D4, log 7, that any
byte address may be fetched from D6, log 20). -/
def Obligations.StepRunsTheDecodedInstruction : Prop :=
  ∀ (s s1 : State) (i : Instr),
    s.running = true → timerTick s = .next s1 → s1.pc.toNat % 2 ^ 25 + 8 ≤ 2 ^ 25 →
    decode (readBytes s1 (s1.pc.toNat % 2 ^ 25) 8) = .ok i →
      ∃ s2, step s = exec i s2 ∧ s2.pc = s1.pc ∧ SameRegs s1 s2 ∧ SameControl s1 s2 ∧ s2.mem = s1.mem ∧
        (touchesPlatform s1.parameters (s1.pc.toNat % 2 ^ 25) 8 = false → s2 = s1) ∧
        (touchesPlatform s1.parameters (s1.pc.toNat % 2 ^ 25) 8 = true →
          s2.busEvents = .fetch (s1.pc.toNat % 2 ^ 25) :: s1.busEvents)

/-- An opcode that is none of the 40 stops the machine with the invalid-opcode fault (R112, R281; that the stop is a
fault which records only the opcode is the spec's decision D24, log 12). -/
def Obligations.UnassignedOpcodeStops : Prop :=
  ∀ (s s1 : State),
    s.running = true → timerTick s = .next s1 → s1.pc.toNat % 2 ^ 25 + 8 ≤ 2 ^ 25 →
    opcodeAssigned (readByte s1 (s1.pc.toNat % 2 ^ 25)) = false →
      step s = .fault (.invalidOpcode (readByte s1 (s1.pc.toNat % 2 ^ 25)))

/-- A fetch whose 8 bytes would pass the top of the 25-bit space stops by its own name (R74, the spec's decision
D7, log 8). -/
def Obligations.FetchPastTheTopStops : Prop :=
  ∀ (s s1 : State),
    s.running = true → timerTick s = .next s1 → 0x1FFFFF8 < s1.pc.toNat % 2 ^ 25 →
      step s = .fault (.fetchBeyondTop (BitVec.ofNat 25 s1.pc.toNat))

/-! ## Data movement -/

/-- MOVE completes with the source masked to the size in Rd, bits above the size 0 (R140). -/
def Obligations.MoveCopiesTheMaskedSource : Prop :=
  ∀ (sz : Size) (rd : RegId) (src : MoveSource) (s : State),
    ∃ t v, exec (.move sz rd src) s = .next t ∧ RegisterEffect s t rd v ∧
      v.toNat = (match src with | .reg rs => (readReg s rs).toNat | .imm k => k.toNat) % 2 ^ (8 * sizeBytes sz)

/-- MOVT completes with imm32 in bits 63:32 of Rd and bits 31:0 of Rd kept (R141). -/
def Obligations.MovtReplacesTheUpperHalf : Prop :=
  ∀ (rd : RegId) (imm : Imm) (s : State),
    ∃ t v, exec (.movt rd imm) s = .next t ∧ RegisterEffect s t rd v ∧
      v.toNat = imm.toNat * 2 ^ 32 + (readReg s rd).toNat % 2 ^ 32

/-- MOVEQ completes with imm32, read as a signed number, in Rd (R142). -/
def Obligations.MoveqSignExtends : Prop :=
  ∀ (rd : RegId) (imm : Imm) (s : State),
    ∃ t v, exec (.moveq rd imm) s = .next t ∧ RegisterEffect s t rd v ∧ v.toInt = imm.toInt

/-- LEA completes with the full 64-bit sum of Rs and the signed displacement in Rd, not truncated to 32 bits
(R143). -/
def Obligations.LeaGivesTheFullSum : Prop :=
  ∀ (rd rs : RegId) (disp : Imm) (s : State),
    ∃ t v, exec (.lea rd rs disp) s = .next t ∧ RegisterEffect s t rd v ∧
      v = BitVec.ofInt 64 ((readReg s rs).toInt + disp.toInt)

/-- The expansion of `li` of any 64-bit value is one MOVE.L of it for a value in 0 .. 0xFFFFFFFF, else MOVE.L of its
low and MOVT of its high half; it leaves the value in Rd and advances the PC behind itself (R242, R249). -/
def Obligations.LiLoadsTheConstant : Prop :=
  ∀ (rd : RegId) (v : Word) (s : State),
    Asm.expandLi rd v =
      (if v.toNat ≤ 0xFFFFFFFF then [.move .l rd (.imm (BitVec.ofNat 32 v.toNat))]
        else [.move .l rd (.imm (BitVec.ofNat 32 v.toNat)), .movt rd (BitVec.ofNat 32 (v.toNat / 2 ^ 32))]) ∧
    ∃ t, execAll (Asm.expandLi rd v) s = .next t ∧ OnlyRegWritten s t rd v ∧
      t.pc = s.pc + BitVec.ofNat 64 (8 * (Asm.expandLi rd v).length) ∧ SameControl s t ∧ SameBytes s t

/-- The expansion of `la` leaves the sign-extended address in Rd (R241); those of `beqz`, `bnez`, `bltz`, `bgez`,
`bgtz` and `blez` branch by comparing Rs, read as a signed number, with 0 (R243 to R248). -/
def Obligations.PseudoInstructionsUseR0AsZero : Prop :=
  (∀ (rd : RegId) (addr : Imm) (s : State), ∃ t v, execAll (Asm.expandLa rd addr) s = .next t ∧
    RegisterEffect s t rd v ∧ v.toInt = addr.toInt) ∧
  ∀ (rs : RegId) (off : Imm) (s : State),
    ∀ p ∈ [(Instr.beq, decide ((readReg s rs).toInt = 0)), (.bne, decide ((readReg s rs).toInt ≠ 0)),
        (.blt, decide ((readReg s rs).toInt < 0)), (.bge, decide (0 ≤ (readReg s rs).toInt)),
        (.bgt, decide (0 < (readReg s rs).toInt)), (.ble, decide ((readReg s rs).toInt ≤ 0))],
      ∃ t, execAll (Asm.expandZeroBranch p.1 rs off) s = .next t ∧ JumpEffect s t
        (if p.2 = true then BitVec.ofInt 64 (s.pc.toInt + off.toInt) else s.pc + 8#64)

/-! ## Load and store -/

/-- LOAD of an admitted address completes: Rd holds the bytes at the effective address, little-endian and
zero-extended (R151; that every alignment is admitted is the spec's decision D8, log 20, and where admitted addresses
end D9, log 5). -/
def Obligations.LoadReadsZeroExtended : Prop :=
  ∀ (sz : Size) (rd rs : RegId) (disp : Imm) (s : State),
    (effectiveAddr s rs disp).toNat + sizeBytes sz ≤ accessLimit s.parameters →
      ∃ t v, exec (.load sz rd rs disp) s = .next t ∧
        (∀ k, k < sizeBytes sz →
          v.extractLsb' (8 * k) 8 = readByte s ((effectiveAddr s rs disp).toNat + k)) ∧
        v.toNat < 2 ^ (8 * sizeBytes sz) ∧
        OnlyRegWritten s t rd v ∧ t.pc = s.pc + 8#64 ∧ SameControl s t ∧ t.mem = s.mem ∧
        ReadAccess s t (effectiveAddr s rs disp) (sizeBytes sz)

/-- STORE to an admitted address completes: the low bytes of the register in the Rd field are at the effective
address, every other byte and every register is as before (R152; that every alignment is admitted is the spec's
decision D8, log 20, where admitted addresses end D9, log 5, and that a byte outside RAM changes nothing the CPU holds
D11, log 3). -/
def Obligations.StoreWritesTheLowBytes : Prop :=
  ∀ (sz : Size) (rd rs : RegId) (disp : Imm) (s : State),
    (effectiveAddr s rs disp).toNat + sizeBytes sz ≤ accessLimit s.parameters →
      ∃ t v, exec (.store sz rd rs disp) s = .next t ∧
        v.toNat = (readReg s rd).toNat % 2 ^ (8 * sizeBytes sz) ∧
        WriteAccess s t (effectiveAddr s rs disp) (sizeBytes sz) v ∧
        SameRegs s t ∧ t.pc = s.pc + 8#64 ∧ SameControl s t

/-! ## Arithmetic -/

/-- ADD and SUB complete with the sum and the difference modulo the size (R161, R162). -/
def Obligations.AddAndSubWrapAtTheSize : Prop :=
  ∀ (sz : Size) (rd rs : RegId) (op : Operand3) (s : State),
    (∃ t v, exec (.add sz rd rs op) s = .next t ∧ RegisterEffect s t rd v ∧
      v.toNat = ((readReg s rs).toNat + (op3Value s op).toNat) % 2 ^ (8 * sizeBytes sz)) ∧
    (∃ t v, exec (.sub sz rd rs op) s = .next t ∧ RegisterEffect s t rd v ∧
      (v.toNat : Int) = ((readReg s rs).toNat - (op3Value s op).toNat : Int) % 2 ^ (8 * sizeBytes sz))

/-- MULU and MULS complete with the unsigned and the signed product modulo the size, and for all inputs they give
the same result (R163, R164; the last clause is the spec's own inference). -/
def Obligations.MultiplyGivesTheLowProduct : Prop :=
  ∀ (sz : Size) (rd rs : RegId) (op : Operand3) (s : State),
    (∃ t v, exec (.mulu sz rd rs op) s = .next t ∧ RegisterEffect s t rd v ∧
      v.toNat = ((readReg s rs).toNat * (op3Value s op).toNat) % 2 ^ (8 * sizeBytes sz)) ∧
    (∃ t v, exec (.muls sz rd rs op) s = .next t ∧ RegisterEffect s t rd v ∧
      (v.toNat : Int) = ((readReg s rs).toInt * (op3Value s op).toInt) % 2 ^ (8 * sizeBytes sz)) ∧
    exec (.muls sz rd rs op) s = exec (.mulu sz rd rs op) s

/-- DIVU and MOD complete with the 64-bit unsigned quotient and remainder, masked to the size, and with 0 for a zero
divisor (R165, R167). -/
def Obligations.UnsignedDivisionAndRemainder : Prop :=
  ∀ (sz : Size) (rd rs : RegId) (op : Operand3) (s : State),
    (∃ t v, exec (.divu sz rd rs op) s = .next t ∧ RegisterEffect s t rd v ∧
      v.toNat = (if (op3Value s op).toNat = 0 then 0 else (readReg s rs).toNat / (op3Value s op).toNat) %
        2 ^ (8 * sizeBytes sz)) ∧
    (∃ t v, exec (.mod sz rd rs op) s = .next t ∧ RegisterEffect s t rd v ∧
      v.toNat = (if (op3Value s op).toNat = 0 then 0 else (readReg s rs).toNat % (op3Value s op).toNat) %
        2 ^ (8 * sizeBytes sz))

/-- DIVS completes with a quotient masked to the size: 0 for a zero divisor; the parameter `divs_overflow`, whatever
its value (its default stands in the statement on reset), for -2^63 divided by -1; else the quotient rounded toward zero, whose remainder has the sign of the
dividend and is smaller than the divisor (R166; the rounding is the spec's decision D15, log 17, and the parameter
its decision D16, log 4). -/
def Obligations.SignedDivisionRoundsTowardZero : Prop :=
  ∀ (sz : Size) (rd rs : RegId) (op : Operand3) (s : State),
    ∃ t v q, exec (.divs sz rd rs op) s = .next t ∧ RegisterEffect s t rd v ∧
      v.toNat = q.toNat % 2 ^ (8 * sizeBytes sz) ∧
      ((op3Value s op).toInt = 0 → q = 0#64) ∧
      ((readReg s rs).toInt = -2 ^ 63 → (op3Value s op).toInt = -1 → q = s.parameters.divsOverflow) ∧
      ((op3Value s op).toInt ≠ 0 → ¬ ((readReg s rs).toInt = -2 ^ 63 ∧ (op3Value s op).toInt = -1) →
        ∃ r : Int, (readReg s rs).toInt = q.toInt * (op3Value s op).toInt + r ∧
          r.natAbs < (op3Value s op).toInt.natAbs ∧ (r = 0 ∨ (0 < r ↔ 0 < (readReg s rs).toInt)))

/-- NEG completes with the two's complement of Rs and NOT with its bitwise complement, at the size (R168, R184). -/
def Obligations.NegAndNotComplementAtTheSize : Prop :=
  ∀ (sz : Size) (rd rs : RegId) (s : State),
    (∃ t v, exec (.neg sz rd rs) s = .next t ∧ RegisterEffect s t rd v ∧
      v.toNat = (2 ^ 64 - (readReg s rs).toNat) % 2 ^ (8 * sizeBytes sz)) ∧
    (∃ t v, exec (.not sz rd rs) s = .next t ∧ RegisterEffect s t rd v ∧
      ∀ k, v.getLsbD k = (decide (k < 8 * sizeBytes sz) && !(readReg s rs).getLsbD k))

/-! ## Logical and shift -/

/-- AND, OR and EOR complete with the bitwise result at the size, bits above the size 0 (R181, R182, R183). -/
def Obligations.LogicalOperationsAreBitwise : Prop :=
  ∀ (sz : Size) (rd rs : RegId) (op : Operand3) (s : State),
    (∃ t v, exec (.and sz rd rs op) s = .next t ∧ RegisterEffect s t rd v ∧
      ∀ k, v.getLsbD k =
        (decide (k < 8 * sizeBytes sz) && ((readReg s rs).getLsbD k && (op3Value s op).getLsbD k))) ∧
    (∃ t v, exec (.or sz rd rs op) s = .next t ∧ RegisterEffect s t rd v ∧
      ∀ k, v.getLsbD k =
        (decide (k < 8 * sizeBytes sz) && ((readReg s rs).getLsbD k || (op3Value s op).getLsbD k))) ∧
    (∃ t v, exec (.eor sz rd rs op) s = .next t ∧ RegisterEffect s t rd v ∧
      ∀ k, v.getLsbD k =
        (decide (k < 8 * sizeBytes sz) && ((readReg s rs).getLsbD k ^^ (op3Value s op).getLsbD k)))

/-- LSL and LSR complete with the full 64-bit value shifted by the count modulo 64, masked to the size (R191,
R192). -/
def Obligations.LogicalShiftsUseSixCountBits : Prop :=
  ∀ (sz : Size) (rd rs : RegId) (op : Operand3) (s : State),
    (∃ t v, exec (.lsl sz rd rs op) s = .next t ∧ RegisterEffect s t rd v ∧
      v.toNat = ((readReg s rs).toNat * 2 ^ ((op3Value s op).toNat % 64)) % 2 ^ (8 * sizeBytes sz)) ∧
    (∃ t v, exec (.lsr sz rd rs op) s = .next t ∧ RegisterEffect s t rd v ∧
      v.toNat = ((readReg s rs).toNat / 2 ^ ((op3Value s op).toNat % 64)) % 2 ^ (8 * sizeBytes sz))

/-- ASR completes with the value read as a signed number of the size, divided by 2 to the count modulo 64 and rounded
down, masked to the size (R193). -/
def Obligations.ArithmeticShiftFloorsAtTheSize : Prop :=
  ∀ (sz : Size) (rd rs : RegId) (op : Operand3) (s : State),
    ∃ t v, exec (.asr sz rd rs op) s = .next t ∧ RegisterEffect s t rd v ∧
      (v.toNat : Int) =
        (Int.bmod (readReg s rs).toNat (2 ^ (8 * sizeBytes sz)) / 2 ^ ((op3Value s op).toNat % 64)) %
          2 ^ (8 * sizeBytes sz)

/-! ## Branches -/

/-- BRA completes at its own address plus the signed offset, modulo 2^64, and changes nothing else (R202). -/
def Obligations.BraGoesToThePcPlusOffset : Prop :=
  ∀ (off : Imm) (s : State),
    ∃ t, exec (.bra off) s = .next t ∧ JumpEffect s t (BitVec.ofInt 64 (s.pc.toInt + off.toInt))

/-- BEQ and BNE complete: taken on equal and on different registers, at all 64 bits; else the PC advances (R203,
R204). -/
def Obligations.EqualityBranches : Prop :=
  ∀ (rs rt : RegId) (off : Imm) (s : State),
    (∃ t, exec (.beq rs rt off) s = .next t ∧ JumpEffect s t
      (if readReg s rs = readReg s rt then BitVec.ofInt 64 (s.pc.toInt + off.toInt) else s.pc + 8#64)) ∧
    (∃ t, exec (.bne rs rt off) s = .next t ∧ JumpEffect s t
      (if readReg s rs = readReg s rt then s.pc + 8#64 else BitVec.ofInt 64 (s.pc.toInt + off.toInt)))

/-- BLT, BGE, BGT and BLE complete: taken by the signed comparison of the two registers (R205 to R208). -/
def Obligations.SignedBranches : Prop :=
  ∀ (rs rt : RegId) (off : Imm) (s : State),
    (∃ t, exec (.blt rs rt off) s = .next t ∧ JumpEffect s t
      (if (readReg s rs).toInt < (readReg s rt).toInt then BitVec.ofInt 64 (s.pc.toInt + off.toInt)
        else s.pc + 8#64)) ∧
    (∃ t, exec (.bge rs rt off) s = .next t ∧ JumpEffect s t
      (if (readReg s rt).toInt ≤ (readReg s rs).toInt then BitVec.ofInt 64 (s.pc.toInt + off.toInt)
        else s.pc + 8#64)) ∧
    (∃ t, exec (.bgt rs rt off) s = .next t ∧ JumpEffect s t
      (if (readReg s rt).toInt < (readReg s rs).toInt then BitVec.ofInt 64 (s.pc.toInt + off.toInt)
        else s.pc + 8#64)) ∧
    (∃ t, exec (.ble rs rt off) s = .next t ∧ JumpEffect s t
      (if (readReg s rs).toInt ≤ (readReg s rt).toInt then BitVec.ofInt 64 (s.pc.toInt + off.toInt)
        else s.pc + 8#64))

/-- BHI and BLS complete: taken by the unsigned comparison of the two registers (R209, R210). -/
def Obligations.UnsignedBranches : Prop :=
  ∀ (rs rt : RegId) (off : Imm) (s : State),
    (∃ t, exec (.bhi rs rt off) s = .next t ∧ JumpEffect s t
      (if (readReg s rt).toNat < (readReg s rs).toNat then BitVec.ofInt 64 (s.pc.toInt + off.toInt)
        else s.pc + 8#64)) ∧
    (∃ t, exec (.bls rs rt off) s = .next t ∧ JumpEffect s t
      (if (readReg s rs).toNat ≤ (readReg s rt).toNat then BitVec.ofInt 64 (s.pc.toInt + off.toInt)
        else s.pc + 8#64))

/-- BGT of Rs and Rt is BLT of Rt and Rs; and for every pair of registers exactly one of each complementary pair of
branches reaches the target, the other falls through, when the two places differ (R206, R207, R208, R210). -/
def Obligations.BranchPairsAreComplementary : Prop :=
  ∀ (rs rt : RegId) (off : Imm) (s : State),
    exec (.bgt rs rt off) s = exec (.blt rt rs off) s ∧
    (branchTarget s off ≠ s.pc + 8#64 →
      ∀ p ∈ [(Instr.beq rs rt off, Instr.bne rs rt off), (.blt rs rt off, .bge rs rt off),
          (.bgt rs rt off, .ble rs rt off), (.bhi rs rt off, .bls rs rt off)],
        ∃ t u, exec p.1 s = .next t ∧ exec p.2 s = .next u ∧
          ((t.pc = branchTarget s off ∧ u.pc = s.pc + 8#64) ∨ (t.pc = s.pc + 8#64 ∧ u.pc = branchTarget s off)))

/-! ## Subroutine and stack -/

/-- JSR with an admitted stack slot completes: SP moves down by 8, `pc + 8` is at the new SP, control goes to the
JSR's own address plus the signed offset, modulo 2^64 (R221; the slot's address is the spec's decision D10, log 14,
the wrapping of the PC D5, log 7). -/
def Obligations.JsrPushesTheReturnAddress : Prop :=
  ∀ (off : Imm) (s : State),
    (stackAddr (decrementSp s)).toNat + 8 ≤ accessLimit s.parameters →
      ∃ t, exec (.jsr off) s = .next t ∧ OnlyRegWritten s t 31#5 (readReg s 31#5 - 8#64) ∧
        WriteAccess s t (stackAddr (decrementSp s)) 8 (s.pc + 8#64) ∧
        t.pc = BitVec.ofInt 64 (s.pc.toInt + off.toInt) ∧ SameControl s t

/-- RTS with an admitted stack slot completes: the PC takes the 8 bytes at SP, all 64 bits, and SP moves up by 8;
`inInterrupt` is untouched (R222; the slot's address is the spec's decision D10, log 14). -/
def Obligations.RtsPopsThePc : Prop :=
  ∀ s : State,
    (stackAddr s).toNat + 8 ≤ accessLimit s.parameters →
      ∃ t, exec .rts s = .next t ∧
        (∀ k, k < 8 → t.pc.extractLsb' (8 * k) 8 = readByte s ((stackAddr s).toNat + k)) ∧
        OnlyRegWritten s t 31#5 (readReg s 31#5 + 8#64) ∧ SameControl s t ∧ t.mem = s.mem ∧
        ReadAccess s t (stackAddr s) 8

/-- PUSH with an admitted stack slot completes: SP moves down by 8 and the 8 bytes of Rs are at the new SP; `push sp`
stores the decremented SP (R223; the order of the steps for R31 is the spec's decision D17, log 13, the slot's address
D10, log 14). -/
def Obligations.PushStoresAtTheNewSp : Prop :=
  ∀ (rs : RegId) (s : State),
    (stackAddr (decrementSp s)).toNat + 8 ≤ accessLimit s.parameters →
      ∃ t, exec (.push rs) s = .next t ∧ OnlyRegWritten s t 31#5 (readReg s 31#5 - 8#64) ∧
        WriteAccess s t (stackAddr (decrementSp s)) 8
          (if rs = 31#5 then readReg s 31#5 - 8#64 else readReg s rs) ∧
        t.pc = s.pc + 8#64 ∧ SameControl s t

/-- POP with an admitted stack slot completes: Rd takes the 8 bytes at SP and SP moves up by 8; `pop r0` only moves
SP; `pop sp` leaves the value plus 8 in SP (R224; the order of the steps for R31 is the spec's decision D17,
log 13, the slot's address D10, log 14). -/
def Obligations.PopLoadsFromSp : Prop :=
  ∀ (rd : RegId) (s : State),
    (stackAddr s).toNat + 8 ≤ accessLimit s.parameters →
      ∃ t v, exec (.pop rd) s = .next t ∧
        (∀ k, k < 8 → v.extractLsb' (8 * k) 8 = readByte s ((stackAddr s).toNat + k)) ∧
        (∀ r, readReg t r =
          if r = 0#5 then 0#64
          else if r = 31#5 then (if rd = 31#5 then v + 8#64 else readReg s 31#5 + 8#64)
          else if r = rd then v else readReg s r) ∧
        t.pc = s.pc + 8#64 ∧ SameControl s t ∧ t.mem = s.mem ∧ ReadAccess s t (stackAddr s) 8

/-- A data or stack access that does not lie below `MEM_SIZE` and 2^32 stops by name, interrupt entry among them (R71,
R220; that a model faults there is the spec's decision D9, log 5, and for interrupt entry log 23; the slot's address,
the low 32 bits of SP, is its decision D10, log 14). -/
def Obligations.UnadmittedAccessesStop : Prop :=
  ∀ (sz : Size) (rd rs : RegId) (disp off : Imm) (s : State),
    (accessLimit s.parameters < (effectiveAddr s rs disp).toNat + sizeBytes sz →
      exec (.load sz rd rs disp) s =
        .fault (.accessBeyondMemory .read (effectiveAddr s rs disp) (sizeBytes sz)) ∧
      exec (.store sz rd rs disp) s =
        .fault (.accessBeyondMemory .write (effectiveAddr s rs disp) (sizeBytes sz))) ∧
    (accessLimit s.parameters < (stackAddr (decrementSp s)).toNat + 8 →
      exec (.jsr off) s = .fault (.accessBeyondMemory .write (stackAddr (decrementSp s)) 8) ∧
      exec (.push rs) s = .fault (.accessBeyondMemory .write (stackAddr (decrementSp s)) 8) ∧
      interruptEntry s = .fault (.accessBeyondMemory .write (stackAddr (decrementSp s)) 8)) ∧
    (accessLimit s.parameters < (stackAddr s).toNat + 8 →
      exec .rts s = .fault (.accessBeyondMemory .read (stackAddr s) 8) ∧
      exec .rti s = .fault (.accessBeyondMemory .read (stackAddr s) 8) ∧
      exec (.pop rd) s = .fault (.accessBeyondMemory .read (stackAddr s) 8))

/-- On a stack in RAM, RTS after JSR continues behind the JSR with every register as before (R221, R222; the slot's
address is the spec's decision D10, log 14). -/
def Obligations.RtsReturnsBehindTheJsr : Prop :=
  ∀ (off : Imm) (s t : State),
    exec (.jsr off) s = .next t → touchesPlatform s.parameters (stackAddr (decrementSp s)).toNat 8 = false →
      ∃ u, exec .rts t = .next u ∧ u.pc = s.pc + 8#64 ∧ SameRegs s u ∧ SameControl s u

/-- On a stack in RAM, POP after PUSH moves the register's value and restores SP (R223, R224, R225; the slot's address
is the spec's decision D10, log 14). -/
def Obligations.PopReturnsThePushedValue : Prop :=
  ∀ (rs rd : RegId) (s t : State),
    exec (.push rs) s = .next t → touchesPlatform s.parameters (stackAddr (decrementSp s)).toNat 8 = false →
    rs ≠ 31#5 → rd ≠ 31#5 →
      ∃ u, exec (.pop rd) t = .next u ∧ OnlyRegWritten s u rd (readReg s rs) ∧ u.pc = s.pc + 16#64 ∧
        SameControl s u

/-! ## System -/

/-- NOP and WAIT of any count complete with the PC advanced and nothing else changed (R230, R235; that the pause has
no architectural effect is the spec's decision D27, log 15). -/
def Obligations.NopAndWaitOnlyAdvance : Prop :=
  ∀ (usec : Imm) (s : State),
    (∃ t, exec .nop s = .next t ∧ JumpEffect s t (s.pc + 8#64)) ∧
    (∃ t, exec (.wait usec) s = .next t ∧ JumpEffect s t (s.pc + 8#64))

/-- HALT completes with `running` false, the PC at the HALT and everything else as it was; after it there is no
further step (R231, R330; that a stopped machine's step answers `halted` is log 11). -/
def Obligations.HaltEndsTheRun : Prop :=
  ∀ s : State,
    ∃ t, exec .halt s = .next t ∧ t.running = false ∧ t.pc = s.pc ∧ SameRegs s t ∧ SameBytes s t ∧
      t.interruptEnabled = s.interruptEnabled ∧ t.inInterrupt = s.inInterrupt ∧
      t.interruptVector = s.interruptVector ∧ SameTimer s t ∧ t.parameters = s.parameters ∧
      step t = .fault .halted

/-- SEI completes with interrupts enabled, CLI with interrupts disabled; nothing else changes but the PC
(R232, R233). -/
def Obligations.SeiEnablesAndCliDisables : Prop :=
  ∀ s : State,
    (∃ t, exec .sei s = .next t ∧ t.interruptEnabled = true ∧ t.pc = s.pc + 8#64 ∧ SameRegs s t ∧ SameBytes s t ∧
      t.inInterrupt = s.inInterrupt ∧ t.interruptVector = s.interruptVector ∧ t.running = s.running ∧
      SameTimer s t ∧ t.parameters = s.parameters) ∧
    (∃ t, exec .cli s = .next t ∧ t.interruptEnabled = false ∧ t.pc = s.pc + 8#64 ∧ SameRegs s t ∧ SameBytes s t ∧
      t.inInterrupt = s.inInterrupt ∧ t.interruptVector = s.interruptVector ∧ t.running = s.running ∧
      SameTimer s t ∧ t.parameters = s.parameters)

/-- RTI with an admitted stack slot completes: as RTS, and `inInterrupt` is cleared, `interruptEnabled` kept
(R234; the slot's address is the spec's decision D10, log 14). -/
def Obligations.RtiPopsThePcAndEndsService : Prop :=
  ∀ s : State,
    (stackAddr s).toNat + 8 ≤ accessLimit s.parameters →
      ∃ t, exec .rti s = .next t ∧
        (∀ k, k < 8 → t.pc.extractLsb' (8 * k) 8 = readByte s ((stackAddr s).toNat + k)) ∧
        OnlyRegWritten s t 31#5 (readReg s 31#5 + 8#64) ∧ t.inInterrupt = false ∧
        t.interruptEnabled = s.interruptEnabled ∧ t.interruptVector = s.interruptVector ∧
        t.running = s.running ∧ SameTimer s t ∧ t.parameters = s.parameters ∧ t.mem = s.mem ∧
        ReadAccess s t (stackAddr s) 8

/-! ## The timer and its interrupt -/

/-- With the timer off at launch no interrupt is ever taken: in every state the run reaches, a tick changes nothing,
and the timer fields are as at launch (R297, the spec's own inference; the gate is its decision D19, log 9). -/
def Obligations.TimerOffMeansNoInterrupt : Prop :=
  ∀ s t : State, s.timerEnabled = false → Reaches s t →
    SameTimer s t ∧ timerTick t = .next t ∧ (t.running = true → step t = fetchAndRun t)

/-- Below the rate, `k` ticks only count: the cycle counter moves by `k` and nothing else changes (R285, R286; the
spec's decisions D18 and D19, log 9). -/
def Obligations.TicksBelowTheRateOnlyCount : Prop :=
  ∀ (k : Nat) (s : State), s.timerEnabled = true → s.cycleCounter + k < 44100 →
    ticks k s = .next { s with cycleCounter := s.cycleCounter + k }

/-- A tick that reaches the rate starts the counter again from 0 and decrements a count above 1; a count found 0 is
reloaded from a period that is not 0 and the state becomes RUNNING, and stays 0 with a period of 0 (R286 steps 2
and 4; that these are two cases is the spec's decision D21, log 9). -/
def Obligations.TickAtTheRateWithoutExpiry : Prop :=
  ∀ s : State, s.timerEnabled = true → 44100 ≤ s.cycleCounter + 1 →
    (1 < s.timerCount.toNat →
      timerTick s = .next { s with cycleCounter := 0, timerCount := s.timerCount - 1#64 }) ∧
    (s.timerCount = 0#64 → s.timerPeriod ≠ 0#64 →
      timerTick s = .next { s with
        cycleCounter := 0, timerCount := s.timerPeriod, timerState := Config.timerRunning }) ∧
    (s.timerCount = 0#64 → s.timerPeriod = 0#64 → timerTick s = .next { s with cycleCounter := 0 })

/-- An expiry with interrupts disabled or one in service is dropped: the state becomes EXPIRED, the count is reloaded,
nothing else moves but the cycle counter (R286 step 3, R289, R292; that the state stays EXPIRED after the reload is the
spec's decision D21, log 9). -/
def Obligations.BlockedExpiryIsDropped : Prop :=
  ∀ s : State, s.timerEnabled = true → 44100 ≤ s.cycleCounter + 1 → s.timerCount = 1#64 →
    (s.interruptEnabled = false ∨ s.inInterrupt = true) →
      timerTick s = .next { s with
        cycleCounter := 0, timerCount := s.timerPeriod, timerState := Config.timerExpired }

/-- An expiry with interrupts enabled and none in service, on an admitted stack slot, enters the interrupt: the
unmasked PC is at the new SP, control is at `interruptVector`, `inInterrupt` is set, `interruptEnabled` stays; the
state becomes EXPIRED and the count is reloaded (R286 step 3, R289, R290; the PC saved is the spec's decision D22,
log 23, that the state stays EXPIRED after the reload D21, log 9, the slot's address D10, log 14). -/
def Obligations.ExpiryEntersTheInterrupt : Prop :=
  ∀ s : State, s.timerEnabled = true → 44100 ≤ s.cycleCounter + 1 → s.timerCount = 1#64 →
    s.interruptEnabled = true → s.inInterrupt = false → (stackAddr (decrementSp s)).toNat + 8 ≤ accessLimit s.parameters →
      ∃ t, timerTick s = .next t ∧ t.pc = s.interruptVector ∧ t.inInterrupt = true ∧ t.interruptEnabled = true ∧
        t.interruptVector = s.interruptVector ∧ t.running = s.running ∧
        OnlyRegWritten s t 31#5 (readReg s 31#5 - 8#64) ∧
        WriteAccess s t (stackAddr (decrementSp s)) 8 s.pc ∧
        t.cycleCounter = 0 ∧ t.timerState = Config.timerExpired ∧ t.timerCount = s.timerPeriod ∧
        t.timerPeriod = s.timerPeriod ∧ t.timerEnabled = true ∧ t.parameters = s.parameters

/-- Interrupts do not nest: while one is in service a tick always answers, and moves nothing but the timer fields,
whether or not interrupts are enabled (R289, R294). -/
def Obligations.InterruptsDoNotNest : Prop :=
  ∀ s : State, s.inInterrupt = true →
    ∃ t, timerTick s = .next t ∧ t.inInterrupt = true ∧ t.pc = s.pc ∧ SameRegs s t ∧ SameBytes s t ∧
      t.interruptEnabled = s.interruptEnabled ∧ t.interruptVector = s.interruptVector ∧ t.running = s.running ∧
      t.timerEnabled = s.timerEnabled ∧ t.timerPeriod = s.timerPeriod ∧ t.parameters = s.parameters

/-- On a stack in RAM, RTI at the start of the handler resumes the interrupted program: the PC and every register as
before the entry, `inInterrupt` cleared (R290, R293, R234; that the entry saves all 64 bits of the PC, unmasked, is
the spec's decision D22, log 23, the slot's address D10, log 14). -/
def Obligations.RtiResumesTheInterruptedProgram : Prop :=
  ∀ s t : State, interruptEntry s = .next t → touchesPlatform s.parameters (stackAddr (decrementSp s)).toNat 8 = false →
    ∃ u, exec .rti t = .next u ∧ u.pc = s.pc ∧ SameRegs s u ∧ u.inInterrupt = false ∧
      u.interruptEnabled = s.interruptEnabled ∧ u.interruptVector = s.interruptVector ∧ u.running = s.running ∧
      SameTimer s u ∧ u.parameters = s.parameters

/-- A timer with count N > 0 and the cycle counter at 0 expires at tick N * 44100: after that many ticks, with
interrupts blocked, the state is EXPIRED, the count is reloaded and nothing else has changed (R287 (a), (b), the
spec's own inference; the steps of the tick are its decisions D18, D19 and D21, log 9). -/
def Obligations.TimerExpiresAfterItsCount : Prop :=
  ∀ s : State, s.timerEnabled = true → s.cycleCounter = 0 → s.timerCount ≠ 0#64 →
    (s.interruptEnabled = false ∨ s.inInterrupt = true) →
      ticks (s.timerCount.toNat * 44100) s =
        .next { s with timerCount := s.timerPeriod, timerState := Config.timerExpired }

/-! ## The whole machine -/

/-- The state after reset: the PC, the registers, the interrupt flags, the vector and the timer fields of R53. The
cycle counter (D20, log 10) and `running` (D25, log 11) are the spec's decisions. That memory lists nothing is the
model's choice of log 1 (R53 and D28 leave the contents of memory unspecified; an unlisted byte is a free value), the
empty list of platform events that of log 24. All of it holds for every value of the open parameters, which
`State.reset` has at the spec's defaults (R6; its decisions D9, D11 and D16, logs 5, 6 and 4). -/
def Obligations.ResetLeavesTheStatedValues : Prop :=
  State.reset = State.resetOn ⟨0x2000000, [(0x00000, 0x9FFFF)], 0x8000000000000000#64⟩ ∧
  ∀ p : Parameters, (State.resetOn p).parameters = p ∧
    (State.resetOn p).pc = 0x1000#64 ∧ readReg (State.resetOn p) 31#5 = 0x9F000#64 ∧
    (∀ r : RegId, r ≠ 31#5 → readReg (State.resetOn p) r = 0#64) ∧
    (State.resetOn p).interruptEnabled = false ∧ (State.resetOn p).inInterrupt = false ∧
    (State.resetOn p).interruptVector = 0#64 ∧ (State.resetOn p).timerEnabled = false ∧
    (State.resetOn p).timerState = 0#32 ∧ (State.resetOn p).timerCount = 0#64 ∧
    (State.resetOn p).timerPeriod = 0#64 ∧ (State.resetOn p).cycleCounter = 0 ∧ (State.resetOn p).running = true ∧
    (State.resetOn p).mem = [] ∧ (State.resetOn p).busEvents = []

/-- The state after reset meets the invariant, whatever the open parameters are (R6). -/
def Obligations.ResetMeetsTheInvariant : Prop :=
  ∀ p : Parameters, (State.resetOn p).Wf

/-- Every step keeps the invariant: memory in its canonical form and in RAM only, R0's element 0, the cycle counter
below the rate, the timer state legal, only accesses outside RAM delivered to the platform. No step changes the
open parameters (R6). -/
def Obligations.StepKeepsTheInvariant : Prop :=
  ∀ s t : State, s.Wf → step s = .next t → t.Wf ∧ t.parameters = s.parameters

/-- No instruction writes the timer fields, `interruptVector` or the open parameters; only SEI and CLI write
`interruptEnabled`, only RTI writes `inInterrupt` and only clears it, only HALT writes `running` and only clears it
(R41, R42, R43, R236; in part the spec's own inference). -/
def Obligations.ControlStateHasItsOwnInstructions : Prop :=
  ∀ (i : Instr) (s t : State), exec i s = .next t →
    SameTimer s t ∧ t.parameters = s.parameters ∧ t.interruptVector = s.interruptVector ∧
    (i ≠ .sei → i ≠ .cli → t.interruptEnabled = s.interruptEnabled) ∧
    t.inInterrupt = (if i = .rti then false else s.inInterrupt) ∧
    t.running = (if i = .halt then false else s.running)

/-- No instruction but STORE, PUSH and JSR writes memory: any other instruction that answers leaves the memory as it
was, and every RAM byte reads as before. Of the paths to memory of R62, LOAD, RTS, POP and RTI only read (R151, R222,
R224, R234). Interrupt entry, which writes the saved PC, is no instruction and another statement. -/
def Obligations.OnlyStorePushAndJsrWriteMemory : Prop :=
  ∀ (i : Instr) (s t : State), exec i s = .next t →
    (∀ sz rd rs disp, i ≠ .store sz rd rs disp) → (∀ rs, i ≠ .push rs) → (∀ off, i ≠ .jsr off) →
      t.mem = s.mem ∧ ∀ a, isRam s.parameters a = true → readByte t a = readByte s a

/-- No instruction is refused, and the only stop an instruction can end in is a data or stack access beyond
`MEM_SIZE` or 2^32; a step is never refused (R280, R282; the stop itself is the spec's decision D9, log 5). -/
def Obligations.InstructionsStopOnlyOnUnadmittedAccesses : Prop :=
  (∀ (i : Instr) (s : State) (r : Refusal), exec i s ≠ .refused r) ∧
  (∀ (i : Instr) (s : State) (f : Fault), exec i s = .fault f →
    ∃ k a n, f = .accessBeyondMemory k a n ∧ accessLimit s.parameters < a.toNat + n) ∧
  (∀ (s : State) (r : Refusal), step s ≠ .refused r)
end

