-- ==== Sys2Proof/Laws/Decode.lean ====
section
/-! SUPPORT. The packing of fields into a word and back (R102 to R104). -/

namespace Sys2Proof

/-- Extraction undoes packing: no bit of a field is lost. -/
@[simp] theorem fieldsOf_wordOfFields (f : Fields) : fieldsOf (wordOfFields f) = f := by
  cases f with
  | mk op rd sz x rs rt imm =>
    simp only [fieldsOf, wordOfFields, Fields.mk.injEq]
    refine ⟨?_, ?_, ?_, ?_, ?_, ?_, ?_⟩ <;>
      · refine BitVec.eq_of_getLsbD_eq fun i hi => ?_
        simp only [BitVec.getLsbD_extractLsb', BitVec.getLsbD_append]
        repeat' split
        all_goals first
          | omega
          | (simp only [hi, decide_true, Bool.true_and]; congr 1; omega)

@[simp] theorem sizeOfCode_codeOfSize (sz : Size) : sizeOfCode (codeOfSize sz) = sz := by
  cases sz <;> decide

theorem operand3Of_fieldsAlu3 (op : Byte) (sz : Size) (rd rs : RegId) (o : Operand3) :
    operand3Of (fieldsAlu3 op sz rd rs o) = o := by
  cases o <;> rfl

theorem moveSourceOf_fieldsMov (op : Byte) (sz : Size) (rd : RegId) (src : MoveSource) :
    moveSourceOf (fieldsMov op sz rd src) = src := by
  cases src <;> rfl

/-- Packing writes zero into the reserved bits (R104). -/
theorem reserved_wordOfFields (f : Fields) :
    reservedByte2Zero (wordOfFields f) = true ∧ reservedByte3Zero (wordOfFields f) = true := by
  cases f with
  | mk op rd sz x rs rt imm =>
    simp only [reservedByte2Zero, reservedByte3Zero, wordOfFields, beq_iff_eq]
    refine ⟨?_, ?_⟩ <;>
      · refine BitVec.eq_of_getLsbD_eq fun i hi => ?_
        simp only [BitVec.getLsbD_extractLsb', BitVec.getLsbD_append]
        repeat' split
        all_goals first
          | omega
          | simp

/-- The opcode byte of a packed word. -/
theorem opcode_wordOfFields (f : Fields) : (wordOfFields f).extractLsb' 0 8 = f.opcode :=
  congrArg Fields.opcode (fieldsOf_wordOfFields f)

/-- A packed word with an assigned opcode is well formed. -/
theorem wordWellFormed_wordOfFields {f : Fields} (h : opcodeAssigned f.opcode = true) :
    wordWellFormed (wordOfFields f) = true := by
  simp [wordWellFormed, opcode_wordOfFields, h, reserved_wordOfFields f]

end Sys2Proof
end

