-- ==== Sys2Proof/Laws/State.lean ====
section
/-! SUPPORT. The small lemmas of State: one per field per update, and reading through an update. -/

namespace Sys2Proof.Machine

/-! ## Reading through an update -/

/-- A register read sees only the registers. -/
@[simp] theorem readReg_update (s : State) (r : RegId) (pc : Word) (ie ii : Bool) (iv : Word) (te : Bool)
    (ts : BitVec 32) (tc tp : Word) (cc : Nat) (rn : Bool) (m : Memory) (ev : List BusEvent) (pf : Parameters) :
    readReg ⟨s.regs, pc, ie, ii, iv, te, ts, tc, tp, cc, rn, m, ev, pf⟩ r = readReg s r := rfl

/-- A byte read sees only the memory, what has reached the platform, and what is RAM. -/
@[simp] theorem readByte_update (s : State) (a : Nat) (regs : Vector Word 32) (pc : Word) (ie ii : Bool) (iv : Word)
    (te : Bool) (ts : BitVec 32) (tc tp : Word) (cc : Nat) (rn : Bool) :
    readByte ⟨regs, pc, ie, ii, iv, te, ts, tc, tp, cc, rn, s.mem, s.busEvents, s.parameters⟩ a = readByte s a := rfl

/-- Equal registers read alike. -/
theorem readReg_congr {s t : State} (h : t.regs = s.regs) (r : RegId) : readReg t r = readReg s r := by
  unfold readReg; simp only [h]

/-- Equal memories and equal platform histories read alike. -/
theorem readByte_congr {s t : State} (hm : t.mem = s.mem) (he : t.busEvents = s.busEvents)
    (hp : t.parameters = s.parameters) (a : Nat) : readByte t a = readByte s a := by
  unfold readByte; rw [hm, he, hp]

/-! ## setPc -/

@[simp] theorem setPc_regs (s : State) (t : Word) : (setPc s t).regs = s.regs := rfl

@[simp] theorem setPc_interruptEnabled (s : State) (t : Word) : (setPc s t).interruptEnabled = s.interruptEnabled := rfl

@[simp] theorem setPc_inInterrupt (s : State) (t : Word) : (setPc s t).inInterrupt = s.inInterrupt := rfl

@[simp] theorem setPc_interruptVector (s : State) (t : Word) : (setPc s t).interruptVector = s.interruptVector := rfl

@[simp] theorem setPc_timerEnabled (s : State) (t : Word) : (setPc s t).timerEnabled = s.timerEnabled := rfl

@[simp] theorem setPc_timerState (s : State) (t : Word) : (setPc s t).timerState = s.timerState := rfl

@[simp] theorem setPc_timerCount (s : State) (t : Word) : (setPc s t).timerCount = s.timerCount := rfl

@[simp] theorem setPc_timerPeriod (s : State) (t : Word) : (setPc s t).timerPeriod = s.timerPeriod := rfl

@[simp] theorem setPc_cycleCounter (s : State) (t : Word) : (setPc s t).cycleCounter = s.cycleCounter := rfl

@[simp] theorem setPc_running (s : State) (t : Word) : (setPc s t).running = s.running := rfl

@[simp] theorem setPc_mem (s : State) (t : Word) : (setPc s t).mem = s.mem := rfl

@[simp] theorem setPc_busEvents (s : State) (t : Word) : (setPc s t).busEvents = s.busEvents := rfl

@[simp] theorem setPc_parameters (s : State) (t : Word) : (setPc s t).parameters = s.parameters := rfl

@[simp] theorem setPc_pc (s : State) (t : Word) : (setPc s t).pc = t := rfl

/-! ## advancePc -/

@[simp] theorem advancePc_regs (s : State) : (advancePc s).regs = s.regs := rfl

@[simp] theorem advancePc_interruptEnabled (s : State) : (advancePc s).interruptEnabled = s.interruptEnabled := rfl

@[simp] theorem advancePc_inInterrupt (s : State) : (advancePc s).inInterrupt = s.inInterrupt := rfl

@[simp] theorem advancePc_interruptVector (s : State) : (advancePc s).interruptVector = s.interruptVector := rfl

@[simp] theorem advancePc_timerEnabled (s : State) : (advancePc s).timerEnabled = s.timerEnabled := rfl

@[simp] theorem advancePc_timerState (s : State) : (advancePc s).timerState = s.timerState := rfl

@[simp] theorem advancePc_timerCount (s : State) : (advancePc s).timerCount = s.timerCount := rfl

@[simp] theorem advancePc_timerPeriod (s : State) : (advancePc s).timerPeriod = s.timerPeriod := rfl

@[simp] theorem advancePc_cycleCounter (s : State) : (advancePc s).cycleCounter = s.cycleCounter := rfl

@[simp] theorem advancePc_running (s : State) : (advancePc s).running = s.running := rfl

@[simp] theorem advancePc_mem (s : State) : (advancePc s).mem = s.mem := rfl

@[simp] theorem advancePc_busEvents (s : State) : (advancePc s).busEvents = s.busEvents := rfl

@[simp] theorem advancePc_parameters (s : State) : (advancePc s).parameters = s.parameters := rfl

@[simp] theorem advancePc_pc (s : State) : (advancePc s).pc = s.pc + 8#64 := rfl

/-! ## writeReg -/

@[simp] theorem writeReg_pc (s : State) (r : RegId) (v : Word) : (writeReg s r v).pc = s.pc := by
  unfold writeReg; split <;> rfl

@[simp] theorem writeReg_interruptEnabled (s : State) (r : RegId) (v : Word) : (writeReg s r v).interruptEnabled = s.interruptEnabled := by
  unfold writeReg; split <;> rfl

@[simp] theorem writeReg_inInterrupt (s : State) (r : RegId) (v : Word) : (writeReg s r v).inInterrupt = s.inInterrupt := by
  unfold writeReg; split <;> rfl

@[simp] theorem writeReg_interruptVector (s : State) (r : RegId) (v : Word) : (writeReg s r v).interruptVector = s.interruptVector := by
  unfold writeReg; split <;> rfl

@[simp] theorem writeReg_timerEnabled (s : State) (r : RegId) (v : Word) : (writeReg s r v).timerEnabled = s.timerEnabled := by
  unfold writeReg; split <;> rfl

@[simp] theorem writeReg_timerState (s : State) (r : RegId) (v : Word) : (writeReg s r v).timerState = s.timerState := by
  unfold writeReg; split <;> rfl

@[simp] theorem writeReg_timerCount (s : State) (r : RegId) (v : Word) : (writeReg s r v).timerCount = s.timerCount := by
  unfold writeReg; split <;> rfl

@[simp] theorem writeReg_timerPeriod (s : State) (r : RegId) (v : Word) : (writeReg s r v).timerPeriod = s.timerPeriod := by
  unfold writeReg; split <;> rfl

@[simp] theorem writeReg_cycleCounter (s : State) (r : RegId) (v : Word) : (writeReg s r v).cycleCounter = s.cycleCounter := by
  unfold writeReg; split <;> rfl

@[simp] theorem writeReg_running (s : State) (r : RegId) (v : Word) : (writeReg s r v).running = s.running := by
  unfold writeReg; split <;> rfl

@[simp] theorem writeReg_mem (s : State) (r : RegId) (v : Word) : (writeReg s r v).mem = s.mem := by
  unfold writeReg; split <;> rfl

@[simp] theorem writeReg_busEvents (s : State) (r : RegId) (v : Word) : (writeReg s r v).busEvents = s.busEvents := by
  unfold writeReg; split <;> rfl

@[simp] theorem writeReg_parameters (s : State) (r : RegId) (v : Word) : (writeReg s r v).parameters = s.parameters := by
  unfold writeReg; split <;> rfl

/-! ## decrementSp -/

@[simp] theorem decrementSp_pc (s : State) : (decrementSp s).pc = s.pc := by simp [decrementSp]

@[simp] theorem decrementSp_interruptEnabled (s : State) : (decrementSp s).interruptEnabled = s.interruptEnabled := by simp [decrementSp]

@[simp] theorem decrementSp_inInterrupt (s : State) : (decrementSp s).inInterrupt = s.inInterrupt := by simp [decrementSp]

@[simp] theorem decrementSp_interruptVector (s : State) : (decrementSp s).interruptVector = s.interruptVector := by simp [decrementSp]

@[simp] theorem decrementSp_timerEnabled (s : State) : (decrementSp s).timerEnabled = s.timerEnabled := by simp [decrementSp]

@[simp] theorem decrementSp_timerState (s : State) : (decrementSp s).timerState = s.timerState := by simp [decrementSp]

@[simp] theorem decrementSp_timerCount (s : State) : (decrementSp s).timerCount = s.timerCount := by simp [decrementSp]

@[simp] theorem decrementSp_timerPeriod (s : State) : (decrementSp s).timerPeriod = s.timerPeriod := by simp [decrementSp]

@[simp] theorem decrementSp_cycleCounter (s : State) : (decrementSp s).cycleCounter = s.cycleCounter := by simp [decrementSp]

@[simp] theorem decrementSp_running (s : State) : (decrementSp s).running = s.running := by simp [decrementSp]

@[simp] theorem decrementSp_mem (s : State) : (decrementSp s).mem = s.mem := by simp [decrementSp]

@[simp] theorem decrementSp_busEvents (s : State) : (decrementSp s).busEvents = s.busEvents := by simp [decrementSp]

@[simp] theorem decrementSp_parameters (s : State) : (decrementSp s).parameters = s.parameters := by simp [decrementSp]

/-! ## incrementSp -/

@[simp] theorem incrementSp_pc (s : State) : (incrementSp s).pc = s.pc := by simp [incrementSp]

@[simp] theorem incrementSp_interruptEnabled (s : State) : (incrementSp s).interruptEnabled = s.interruptEnabled := by simp [incrementSp]

@[simp] theorem incrementSp_inInterrupt (s : State) : (incrementSp s).inInterrupt = s.inInterrupt := by simp [incrementSp]

@[simp] theorem incrementSp_interruptVector (s : State) : (incrementSp s).interruptVector = s.interruptVector := by simp [incrementSp]

@[simp] theorem incrementSp_timerEnabled (s : State) : (incrementSp s).timerEnabled = s.timerEnabled := by simp [incrementSp]

@[simp] theorem incrementSp_timerState (s : State) : (incrementSp s).timerState = s.timerState := by simp [incrementSp]

@[simp] theorem incrementSp_timerCount (s : State) : (incrementSp s).timerCount = s.timerCount := by simp [incrementSp]

@[simp] theorem incrementSp_timerPeriod (s : State) : (incrementSp s).timerPeriod = s.timerPeriod := by simp [incrementSp]

@[simp] theorem incrementSp_cycleCounter (s : State) : (incrementSp s).cycleCounter = s.cycleCounter := by simp [incrementSp]

@[simp] theorem incrementSp_running (s : State) : (incrementSp s).running = s.running := by simp [incrementSp]

@[simp] theorem incrementSp_mem (s : State) : (incrementSp s).mem = s.mem := by simp [incrementSp]

@[simp] theorem incrementSp_busEvents (s : State) : (incrementSp s).busEvents = s.busEvents := by simp [incrementSp]

@[simp] theorem incrementSp_parameters (s : State) : (incrementSp s).parameters = s.parameters := by simp [incrementSp]

/-! ## noteAccess -/

@[simp] theorem noteAccess_regs (s : State) (a n : Nat) (e : BusEvent) : (noteAccess s a n e).regs = s.regs := by
  unfold noteAccess; split <;> rfl

@[simp] theorem noteAccess_pc (s : State) (a n : Nat) (e : BusEvent) : (noteAccess s a n e).pc = s.pc := by
  unfold noteAccess; split <;> rfl

@[simp] theorem noteAccess_interruptEnabled (s : State) (a n : Nat) (e : BusEvent) : (noteAccess s a n e).interruptEnabled = s.interruptEnabled := by
  unfold noteAccess; split <;> rfl

@[simp] theorem noteAccess_inInterrupt (s : State) (a n : Nat) (e : BusEvent) : (noteAccess s a n e).inInterrupt = s.inInterrupt := by
  unfold noteAccess; split <;> rfl

@[simp] theorem noteAccess_interruptVector (s : State) (a n : Nat) (e : BusEvent) : (noteAccess s a n e).interruptVector = s.interruptVector := by
  unfold noteAccess; split <;> rfl

@[simp] theorem noteAccess_timerEnabled (s : State) (a n : Nat) (e : BusEvent) : (noteAccess s a n e).timerEnabled = s.timerEnabled := by
  unfold noteAccess; split <;> rfl

@[simp] theorem noteAccess_timerState (s : State) (a n : Nat) (e : BusEvent) : (noteAccess s a n e).timerState = s.timerState := by
  unfold noteAccess; split <;> rfl

@[simp] theorem noteAccess_timerCount (s : State) (a n : Nat) (e : BusEvent) : (noteAccess s a n e).timerCount = s.timerCount := by
  unfold noteAccess; split <;> rfl

@[simp] theorem noteAccess_timerPeriod (s : State) (a n : Nat) (e : BusEvent) : (noteAccess s a n e).timerPeriod = s.timerPeriod := by
  unfold noteAccess; split <;> rfl

@[simp] theorem noteAccess_cycleCounter (s : State) (a n : Nat) (e : BusEvent) : (noteAccess s a n e).cycleCounter = s.cycleCounter := by
  unfold noteAccess; split <;> rfl

@[simp] theorem noteAccess_running (s : State) (a n : Nat) (e : BusEvent) : (noteAccess s a n e).running = s.running := by
  unfold noteAccess; split <;> rfl

@[simp] theorem noteAccess_mem (s : State) (a n : Nat) (e : BusEvent) : (noteAccess s a n e).mem = s.mem := by
  unfold noteAccess; split <;> rfl

@[simp] theorem noteAccess_parameters (s : State) (a n : Nat) (e : BusEvent) : (noteAccess s a n e).parameters = s.parameters := by
  unfold noteAccess; split <;> rfl

/-! ## reloadCount -/

@[simp] theorem reloadCount_regs (s : State) : (reloadCount s).regs = s.regs := by
  unfold reloadCount; split <;> rfl

@[simp] theorem reloadCount_pc (s : State) : (reloadCount s).pc = s.pc := by
  unfold reloadCount; split <;> rfl

@[simp] theorem reloadCount_interruptEnabled (s : State) : (reloadCount s).interruptEnabled = s.interruptEnabled := by
  unfold reloadCount; split <;> rfl

@[simp] theorem reloadCount_inInterrupt (s : State) : (reloadCount s).inInterrupt = s.inInterrupt := by
  unfold reloadCount; split <;> rfl

@[simp] theorem reloadCount_interruptVector (s : State) : (reloadCount s).interruptVector = s.interruptVector := by
  unfold reloadCount; split <;> rfl

@[simp] theorem reloadCount_timerEnabled (s : State) : (reloadCount s).timerEnabled = s.timerEnabled := by
  unfold reloadCount; split <;> rfl

@[simp] theorem reloadCount_timerState (s : State) : (reloadCount s).timerState = s.timerState := by
  unfold reloadCount; split <;> rfl

@[simp] theorem reloadCount_timerPeriod (s : State) : (reloadCount s).timerPeriod = s.timerPeriod := by
  unfold reloadCount; split <;> rfl

@[simp] theorem reloadCount_cycleCounter (s : State) : (reloadCount s).cycleCounter = s.cycleCounter := by
  unfold reloadCount; split <;> rfl

@[simp] theorem reloadCount_running (s : State) : (reloadCount s).running = s.running := by
  unfold reloadCount; split <;> rfl

@[simp] theorem reloadCount_mem (s : State) : (reloadCount s).mem = s.mem := by
  unfold reloadCount; split <;> rfl

@[simp] theorem reloadCount_busEvents (s : State) : (reloadCount s).busEvents = s.busEvents := by
  unfold reloadCount; split <;> rfl

@[simp] theorem reloadCount_parameters (s : State) : (reloadCount s).parameters = s.parameters := by
  unfold reloadCount; split <;> rfl

/-! ## timerRestart -/

@[simp] theorem timerRestart_regs (s : State) : (timerRestart s).regs = s.regs := by
  unfold timerRestart; split <;> rfl

@[simp] theorem timerRestart_pc (s : State) : (timerRestart s).pc = s.pc := by
  unfold timerRestart; split <;> rfl

@[simp] theorem timerRestart_interruptEnabled (s : State) : (timerRestart s).interruptEnabled = s.interruptEnabled := by
  unfold timerRestart; split <;> rfl

@[simp] theorem timerRestart_inInterrupt (s : State) : (timerRestart s).inInterrupt = s.inInterrupt := by
  unfold timerRestart; split <;> rfl

@[simp] theorem timerRestart_interruptVector (s : State) : (timerRestart s).interruptVector = s.interruptVector := by
  unfold timerRestart; split <;> rfl

@[simp] theorem timerRestart_timerEnabled (s : State) : (timerRestart s).timerEnabled = s.timerEnabled := by
  unfold timerRestart; split <;> rfl

@[simp] theorem timerRestart_timerPeriod (s : State) : (timerRestart s).timerPeriod = s.timerPeriod := by
  unfold timerRestart; split <;> rfl

@[simp] theorem timerRestart_cycleCounter (s : State) : (timerRestart s).cycleCounter = s.cycleCounter := by
  unfold timerRestart; split <;> rfl

@[simp] theorem timerRestart_running (s : State) : (timerRestart s).running = s.running := by
  unfold timerRestart; split <;> rfl

@[simp] theorem timerRestart_mem (s : State) : (timerRestart s).mem = s.mem := by
  unfold timerRestart; split <;> rfl

@[simp] theorem timerRestart_busEvents (s : State) : (timerRestart s).busEvents = s.busEvents := by
  unfold timerRestart; split <;> rfl

@[simp] theorem timerRestart_parameters (s : State) : (timerRestart s).parameters = s.parameters := by
  unfold timerRestart; split <;> rfl

/-! ## placeInstr -/

@[simp] theorem placeInstr_regs (s : State) (w : Word) : (placeInstr s w).regs = s.regs := rfl

@[simp] theorem placeInstr_pc (s : State) (w : Word) : (placeInstr s w).pc = s.pc := rfl

@[simp] theorem placeInstr_interruptEnabled (s : State) (w : Word) : (placeInstr s w).interruptEnabled = s.interruptEnabled := rfl

@[simp] theorem placeInstr_inInterrupt (s : State) (w : Word) : (placeInstr s w).inInterrupt = s.inInterrupt := rfl

@[simp] theorem placeInstr_interruptVector (s : State) (w : Word) : (placeInstr s w).interruptVector = s.interruptVector := rfl

@[simp] theorem placeInstr_timerEnabled (s : State) (w : Word) : (placeInstr s w).timerEnabled = s.timerEnabled := rfl

@[simp] theorem placeInstr_timerState (s : State) (w : Word) : (placeInstr s w).timerState = s.timerState := rfl

@[simp] theorem placeInstr_timerCount (s : State) (w : Word) : (placeInstr s w).timerCount = s.timerCount := rfl

@[simp] theorem placeInstr_timerPeriod (s : State) (w : Word) : (placeInstr s w).timerPeriod = s.timerPeriod := rfl

@[simp] theorem placeInstr_cycleCounter (s : State) (w : Word) : (placeInstr s w).cycleCounter = s.cycleCounter := rfl

@[simp] theorem placeInstr_busEvents (s : State) (w : Word) : (placeInstr s w).busEvents = s.busEvents := rfl

@[simp] theorem placeInstr_parameters (s : State) (w : Word) : (placeInstr s w).parameters = s.parameters := rfl

/-! ## Registers through the updates -/

@[simp] theorem readReg_zero (s : State) : readReg s 0#5 = 0#64 := by simp [readReg]

/-- The one law of register writes (R11, R31). -/
theorem readReg_writeReg (s : State) (i j : RegId) (v : Word) :
    readReg (writeReg s i v) j = if j = i ∧ i ≠ 0#5 then v else readReg s j := by
  unfold readReg writeReg
  by_cases hi : i = 0#5
  · simp [hi]
  · by_cases hj : j = 0#5
    · subst hj
      have h0 : ¬ 0#5 = i := fun h => hi h.symm
      simp [hi, h0]
    · by_cases hij : j = i
      · subst hij; simp [hi]
      · have hne : ¬ i.toNat = j.toNat := fun h => hij (BitVec.eq_of_toNat_eq h.symm)
        simp [hi, hj, hij, hne]

@[simp] theorem readReg_writeReg_ne (s : State) {i j : RegId} (v : Word) (h : j ≠ i) :
    readReg (writeReg s i v) j = readReg s j := by
  rw [readReg_writeReg]; simp [h]

@[simp] theorem readReg_writeReg_self (s : State) {i : RegId} (v : Word) (h : i ≠ 0#5) :
    readReg (writeReg s i v) i = v := by
  rw [readReg_writeReg]; simp [h]

@[simp] theorem writeReg_zero (s : State) (v : Word) : writeReg s 0#5 v = s := by simp [writeReg]

@[simp] theorem readReg_setPc (s : State) (t : Word) (r : RegId) : readReg (setPc s t) r = readReg s r := rfl

@[simp] theorem readReg_advancePc (s : State) (r : RegId) : readReg (advancePc s) r = readReg s r := rfl

@[simp] theorem readReg_noteAccess (s : State) (a n : Nat) (e : BusEvent) (r : RegId) :
    readReg (noteAccess s a n e) r = readReg s r := readReg_congr (by simp) r

@[simp] theorem readReg_reloadCount (s : State) (r : RegId) : readReg (reloadCount s) r = readReg s r :=
  readReg_congr (by simp) r

@[simp] theorem readReg_timerRestart (s : State) (r : RegId) : readReg (timerRestart s) r = readReg s r :=
  readReg_congr (by simp) r

theorem sp_ne_zero : sp ≠ 0#5 := by decide

/-- SP moves down by 8, every other register stays (R33, R220). -/
theorem readReg_decrementSp (s : State) (r : RegId) :
    readReg (decrementSp s) r = if r = sp then readReg s sp - 8#64 else readReg s r := by
  unfold decrementSp; rw [readReg_writeReg]; simp [sp_ne_zero]

/-- SP moves up by 8, every other register stays (R33, R220). -/
theorem readReg_incrementSp (s : State) (r : RegId) :
    readReg (incrementSp s) r = if r = sp then readReg s sp + 8#64 else readReg s r := by
  unfold incrementSp; rw [readReg_writeReg]; simp [sp_ne_zero]

/-! ## Element 0 of the registers is never written (R31) -/

@[simp] theorem writeReg_regs_zero (s : State) (r : RegId) (v : Word) : (writeReg s r v).regs[0] = s.regs[0] := by
  unfold writeReg
  by_cases h : r = 0#5
  · simp [h]
  · have : ¬ r.toNat = 0 := fun h0 => h (BitVec.eq_of_toNat_eq (by simpa using h0))
    simp [h, this]

@[simp] theorem decrementSp_regs_zero (s : State) : (decrementSp s).regs[0] = s.regs[0] := by
  simp [decrementSp]

@[simp] theorem incrementSp_regs_zero (s : State) : (incrementSp s).regs[0] = s.regs[0] := by
  simp [incrementSp]

/-! ## Bytes through the updates -/

@[simp] theorem readByte_setPc (s : State) (t : Word) (a : Nat) : readByte (setPc s t) a = readByte s a := rfl

@[simp] theorem readByte_advancePc (s : State) (a : Nat) : readByte (advancePc s) a = readByte s a := rfl

@[simp] theorem readByte_writeReg (s : State) (r : RegId) (v : Word) (a : Nat) :
    readByte (writeReg s r v) a = readByte s a := readByte_congr (by simp) (by simp) (by simp) a

@[simp] theorem readByte_decrementSp (s : State) (a : Nat) : readByte (decrementSp s) a = readByte s a :=
  readByte_congr (by simp) (by simp) (by simp) a

@[simp] theorem readByte_incrementSp (s : State) (a : Nat) : readByte (incrementSp s) a = readByte s a :=
  readByte_congr (by simp) (by simp) (by simp) a

end Sys2Proof.Machine
end

