-- ==== Sys2Proof/Laws/Memory.lean ====
section
/-! SUPPORT. Memory: the canonical form is kept, a read gives what was written last, and the byte order
(spec/20_memory.md R60, R64, R69, R70). -/

namespace Sys2Proof.Machine

/-! ## Lists of cells -/

theorem lookupByte_insertByte (m : Memory) (a x : Nat) (b : Byte) :
    lookupByte (insertByte m a b) x = if x = a then some b else lookupByte m x := by
  induction m with
  | nil => simp [insertByte, lookupByte, eq_comm]
  | cons c rest ih =>
    unfold insertByte
    split
    · simp [lookupByte, eq_comm]
    · split
      · rename_i hca
        simp only [lookupByte, hca]
        by_cases h : a = x
        · simp [h]
        · simp [h, Ne.symm h]
      · rename_i hca
        simp only [lookupByte, ih]
        by_cases h : x = a
        · subst h; simp [hca]
        · simp [h]

theorem mem_insertByte {m : Memory} {a : Nat} {b : Byte} {c : Host.Cell} (h : c ∈ insertByte m a b) :
    c = (a, b) ∨ c ∈ m := by
  induction m with
  | nil => simpa [insertByte] using h
  | cons d rest ih =>
    unfold insertByte at h
    split at h
    · simpa using h
    · split at h
      · rcases List.mem_cons.mp h with h | h
        · exact .inl h
        · exact .inr (List.mem_cons_of_mem _ h)
      · rcases List.mem_cons.mp h with h | h
        · exact .inr (h ▸ List.mem_cons_self)
        · exact (ih h).imp id (List.mem_cons_of_mem _)

/-- Listing a byte of RAM keeps the canonical form. -/
theorem insertByte_wf {p : Parameters} {m : Memory} {a : Nat} (b : Byte) (hm : Memory.wf p m)
    (ha : isRam p a = true) : Memory.wf p (insertByte m a b) := by
  refine ⟨?_, fun c hc => (mem_insertByte hc).elim (fun h => h ▸ ha) (hm.2 c)⟩
  have hp := hm.1
  clear hm
  induction m with
  | nil => simp [insertByte]
  | cons d rest ih =>
    rw [List.pairwise_cons] at hp
    unfold insertByte
    split
    · rename_i hlt
      refine List.pairwise_cons.mpr ⟨fun c hc => ?_, List.pairwise_cons.mpr hp⟩
      rcases List.mem_cons.mp hc with rfl | hc
      · exact hlt
      · exact lt_trans hlt (hp.1 c hc)
    · split
      · rename_i hda
        exact List.pairwise_cons.mpr ⟨fun c hc => hda ▸ hp.1 c hc, hp.2⟩
      · rename_i h1 h2
        refine List.pairwise_cons.mpr ⟨fun c hc => ?_, ih hp.2⟩
        rcases mem_insertByte hc with rfl | hc
        · exact lt_of_le_of_ne (not_lt.mp h1) h2
        · exact hp.1 c hc

/-! ## Bytes of RAM -/

theorem storeByte_wf {p : Parameters} {m : Memory} (a : Nat) (b : Byte) (hm : Memory.wf p m) :
    Memory.wf p (storeByte p m a b) := by
  unfold storeByte
  split
  · exact insertByte_wf b hm ‹_›
  · exact hm

theorem storeBytes_wf {p : Parameters} {m : Memory} (a : Nat) (bs : List Byte) (hm : Memory.wf p m) :
    Memory.wf p (storeBytes p m a bs) := by
  induction bs generalizing m a with
  | nil => exact hm
  | cons b bs ih => exact ih (a + 1) (storeByte_wf a b hm)

theorem ramByte_storeByte (p : Parameters) (m : Memory) (a x : Nat) (b : Byte) :
    ramByte (storeByte p m a b) x = if x = a ∧ isRam p a = true then b else ramByte m x := by
  unfold ramByte storeByte
  by_cases hr : isRam p a = true
  · simp only [hr, if_true, lookupByte_insertByte, and_true]
    split <;> simp
  · simp [hr]

/-- After storing a list of bytes, a RAM address within them holds its byte, every other address what it held. -/
theorem ramByte_storeBytes (p : Parameters) (m : Memory) (a x : Nat) (bs : List Byte) :
    ramByte (storeBytes p m a bs) x =
      if a ≤ x ∧ x < a + bs.length ∧ isRam p x = true then bs.getD (x - a) 0#8 else ramByte m x := by
  induction bs generalizing m a with
  | nil =>
    have : ¬ (a ≤ x ∧ x < a + ([] : List Byte).length ∧ isRam p x = true) := by
      rintro ⟨h1, h2, -⟩; simp at h2; omega
    simp only [this, if_false, storeBytes]
  | cons b bs ih =>
    rw [storeBytes, ih, ramByte_storeByte, List.length_cons]
    by_cases hxa : x = a
    · subst hxa
      by_cases hr : isRam p x = true <;> simp [hr]
    · by_cases hr : isRam p x = true
      · by_cases hlo : a + 1 ≤ x
        · by_cases hhi : x < a + 1 + bs.length
          · have h1 : x < a + (bs.length + 1) := by omega
            have h2 : a ≤ x := by omega
            have h3 : x - a = (x - (a + 1)) + 1 := by omega
            simp [hr, hlo, hhi, h1, h2, h3]
          · have h1 : ¬ x < a + (bs.length + 1) := by omega
            simp [hr, hhi, h1, hxa]
        · have h1 : ¬ a ≤ x := by omega
          simp [hlo, h1, hxa]
      · simp [hr, hxa]

/-- A RAM byte reads as the contents of RAM. -/
theorem readByte_ram (s : State) {a : Nat} (h : isRam s.parameters a = true) : readByte s a = ramByte s.mem a := by
  simp [readByte, h]

/-- A byte outside RAM reads as the free value. -/
theorem readByte_platform (s : State) {a : Nat} (h : isRam s.parameters a = false) :
    readByte s a = Config.platformByte s.busEvents a := by
  simp [readByte, h]

/-! ## Byte order (R60) -/

@[simp] theorem length_readBytes (s : State) (a n : Nat) : (readBytes s a n).length = n := by
  induction n generalizing a with
  | zero => rfl
  | succ n ih => simp [readBytes, ih]

@[simp] theorem length_bytesOfWord (v : Word) (n : Nat) : (bytesOfWord v n).length = n := by
  induction n generalizing v with
  | zero => rfl
  | succ n ih => simp [bytesOfWord, ih]

/-- Byte `k` of a value is its bits `8k + 7 .. 8k`. -/
theorem getD_bytesOfWord (v : Word) (n k : Nat) (h : k < n) :
    (bytesOfWord v n).getD k 0#8 = v.extractLsb' (8 * k) 8 := by
  induction n generalizing v k with
  | zero => omega
  | succ n ih =>
    cases k with
    | zero => simp [bytesOfWord, BitVec.setWidth_eq_extractLsb']
    | succ k =>
      have hk : k < n := by omega
      simp only [bytesOfWord, List.getD_cons_succ, ih (v >>> 8) k hk]
      ext i hi
      simp only [BitVec.getElem_extractLsb', BitVec.getLsbD_ushiftRight]
      congr 1
      omega

/-- Bit `i` of the value of a list of bytes is bit `i % 8` of byte `i / 8` (R60). -/
theorem getLsbD_wordOfBytes (bs : List Byte) (i : Nat) (h : i < 64) :
    (wordOfBytes bs).getLsbD i = (bs.getD (i / 8) 0#8).getLsbD (i % 8) := by
  induction bs generalizing i with
  | nil => simp [wordOfBytes]
  | cons b bs ih =>
    simp only [wordOfBytes, BitVec.getLsbD_or, BitVec.getLsbD_shiftLeft, BitVec.getLsbD_setWidth, h, decide_true,
      Bool.true_and]
    by_cases hi : i < 8
    · have h0 : i / 8 = 0 := by omega
      have h1 : i % 8 = i := by omega
      simp [hi, h0, h1]
    · have h0 : i / 8 = (i - 8) / 8 + 1 := by omega
      have h1 : (i - 8) % 8 = i % 8 := by omega
      have hb : b.getLsbD i = false := BitVec.getLsbD_of_ge b i (by omega)
      simp [hi, h0, h1, hb, ih (i - 8) (by omega)]

/-- The value of the first `n` bytes of a word is its low `8n` bits. -/
theorem wordOfBytes_bytesOfWord (v : Word) (n : Nat) :
    wordOfBytes (bytesOfWord v n) = v &&& BitVec.ofNat 64 (2 ^ (8 * n) - 1) := by
  refine BitVec.eq_of_getLsbD_eq fun i hi => ?_
  rw [getLsbD_wordOfBytes _ _ hi, BitVec.getLsbD_and, BitVec.getLsbD_ofNat]
  have hmask : (2 ^ (8 * n) - 1).testBit i = decide (i < 8 * n) := Nat.testBit_two_pow_sub_one _ _
  by_cases h : i / 8 < n
  · rw [getD_bytesOfWord _ _ _ h, BitVec.getLsbD_extractLsb', hmask]
    have h1 : i < 8 * n := by omega
    have h2 : i % 8 < 8 := by omega
    have h3 : 8 * (i / 8) + i % 8 = i := by omega
    simp [h1, h2, h3, hi]
  · have h1 : ¬ i < 8 * n := by omega
    rw [List.getD_eq_default _ _ (by simpa using Nat.le_of_not_lt h), hmask]
    simp [h1]

/-- All 8 bytes of a word give the word back. -/
@[simp] theorem wordOfBytes_bytesOfWord_eight (v : Word) : wordOfBytes (bytesOfWord v 8) = v := by
  rw [wordOfBytes_bytesOfWord v 8]
  refine BitVec.eq_of_getLsbD_eq fun i hi => ?_
  rw [BitVec.getLsbD_and, BitVec.getLsbD_ofNat, Nat.testBit_two_pow_sub_one]
  simp [hi]

theorem getD_readBytes (s : State) (a n k : Nat) (h : k < n) : (readBytes s a n).getD k 0#8 = readByte s (a + k) := by
  induction n generalizing a k with
  | zero => omega
  | succ n ih =>
    cases k with
    | zero => simp [readBytes]
    | succ k =>
      simp only [readBytes, List.getD_cons_succ, ih (a + 1) k (by omega)]
      congr 1
      omega

/-- Reading the same bytes gives the same list. -/
theorem readBytes_congr {s t : State} {a n : Nat} (h : ∀ k, k < n → readByte t (a + k) = readByte s (a + k)) :
    readBytes t a n = readBytes s a n := by
  induction n generalizing a with
  | zero => rfl
  | succ n ih =>
    have h0 := h 0 (by omega)
    simp only [Nat.add_zero] at h0
    simp only [readBytes, h0]
    rw [ih fun k hk => by have := h (k + 1) (by omega); rwa [show a + (k + 1) = a + 1 + k by omega] at this]

/-! ## Which accesses the platform sees -/

/-- No byte of an access is outside RAM exactly when all of them are RAM. -/
theorem touchesPlatform_eq_false (p : Parameters) (a n : Nat) :
    touchesPlatform p a n = false ↔ ∀ k, k < n → isRam p (a + k) = true := by
  induction n generalizing a with
  | zero => simp [touchesPlatform]
  | succ n ih =>
    simp only [touchesPlatform, Bool.or_eq_false_iff, Bool.not_eq_false', ih]
    constructor
    · rintro ⟨h0, h1⟩ k hk
      cases k with
      | zero => simpa using h0
      | succ k => have := h1 k (by omega); rwa [show a + (k + 1) = a + 1 + k by omega]
    · intro h
      refine ⟨by simpa using h 0 (by omega), fun k hk => ?_⟩
      have := h (k + 1) (by omega)
      rwa [show a + (k + 1) = a + 1 + k by omega] at this

/-- With the default of `RAM_REGIONS`, RAM is the addresses up to `0x9FFFF` (R64). -/
theorem isRam_defaultParameters (a : Nat) : isRam defaultParameters a = true ↔ a ≤ 0x9FFFF := by
  simp [isRam, defaultParameters]

/-! ## Where admitted accesses end -/

/-- An admitted access lies below `MEM_SIZE` (R71). -/
theorem accessLimit_le_memSize (p : Parameters) : accessLimit p ≤ p.memSize := Nat.min_le_left _ _

/-- An admitted access does not wrap around past 2^32 (R71). -/
theorem accessLimit_le_space (p : Parameters) : accessLimit p ≤ 2 ^ 32 := Nat.min_le_right _ _

end Sys2Proof.Machine
end

