-- ==== Sys2Proof/Laws/Ops.lean ====
section
/-! SUPPORT. What each shared operation can do, said once: if it answers a next state then this holds of it. -/

namespace Sys2Proof.Machine

/-! ## Sequencing -/

@[simp] theorem andThen_next {α β : Type} (a : α) (f : α → Host.Outcome β Fault Refusal) :
    andThen (.next a) f = f a := rfl

@[simp] theorem andThen_fault {α β : Type} (r : Fault) (f : α → Host.Outcome β Fault Refusal) :
    andThen (.fault r) f = .fault r := rfl

@[simp] theorem andThen_refused {α β : Type} (r : Refusal) (f : α → Host.Outcome β Fault Refusal) :
    andThen (.refused r) f = .refused r := rfl

theorem andThen_eq_next {α β : Type} {x : Host.Outcome α Fault Refusal} {f : α → Host.Outcome β Fault Refusal}
    {b : β} : andThen x f = .next b ↔ ∃ a, x = .next a ∧ f a = .next b := by
  cases x <;> simp [andThen]

theorem andThen_eq_fault {α β : Type} {x : Host.Outcome α Fault Refusal} {f : α → Host.Outcome β Fault Refusal}
    {r : Fault} : andThen x f = .fault r ↔ x = .fault r ∨ ∃ a, x = .next a ∧ f a = .fault r := by
  cases x <;> simp [andThen]

theorem andThen_eq_refused {α β : Type} {x : Host.Outcome α Fault Refusal}
    {f : α → Host.Outcome β Fault Refusal} {r : Refusal} :
    andThen x f = .refused r ↔ x = .refused r ∨ ∃ a, x = .next a ∧ f a = .refused r := by
  cases x <;> simp [andThen]

/-! ## What stays unchanged: small facts -/

theorem SameTimer.refl (s : State) : SameTimer s s := ⟨rfl, rfl, rfl, rfl, rfl⟩

theorem SameControl.refl (s : State) : SameControl s s := ⟨rfl, rfl, rfl, rfl, .refl s, rfl⟩

theorem SameBytes.refl (s : State) : SameBytes s s := ⟨fun _ => rfl, rfl⟩

theorem SameTimer.trans {s t u : State} (h : SameTimer s t) (k : SameTimer t u) : SameTimer s u := by
  obtain ⟨h1, h2, h3, h4, h5⟩ := h
  obtain ⟨k1, k2, k3, k4, k5⟩ := k
  exact ⟨k1.trans h1, k2.trans h2, k3.trans h3, k4.trans h4, k5.trans h5⟩

theorem SameControl.trans {s t u : State} (h : SameControl s t) (k : SameControl t u) : SameControl s u := by
  obtain ⟨h1, h2, h3, h4, h5, h6⟩ := h
  obtain ⟨k1, k2, k3, k4, k5, k6⟩ := k
  exact ⟨k1.trans h1, k2.trans h2, k3.trans h3, k4.trans h4, h5.trans k5, k6.trans h6⟩

theorem SameBytes.trans {s t u : State} (h : SameBytes s t) (k : SameBytes t u) : SameBytes s u :=
  ⟨fun a => (k.1 a).trans (h.1 a), k.2.trans h.2⟩

theorem sameControl_writeReg (s : State) (r : RegId) (v : Word) : SameControl s (writeReg s r v) := by
  simp [SameControl, SameTimer]

theorem sameControl_setPc (s : State) (v : Word) : SameControl s (setPc s v) := by
  simp [SameControl, SameTimer]

theorem sameControl_noteAccess (s : State) (a n : Nat) (e : BusEvent) : SameControl s (noteAccess s a n e) := by
  simp [SameControl, SameTimer]

theorem sameBytes_writeReg (s : State) (r : RegId) (v : Word) : SameBytes s (writeReg s r v) := by
  simp [SameBytes]

theorem sameBytes_setPc (s : State) (v : Word) : SameBytes s (setPc s v) := by
  simp [SameBytes]

/-- Writing a register and advancing is the whole effect of a register instruction. -/
theorem registerEffect_writeReg (s : State) (rd : RegId) (v : Word) :
    RegisterEffect s (advancePc (writeReg s rd v)) rd v := by
  refine ⟨fun r => ?_, ?_, ?_, ?_⟩
  · rw [readReg_advancePc, readReg_writeReg]
  · simp
  · simp [SameControl, SameTimer]
  · simp [SameBytes]

/-! ## Memory accesses -/

/-- `MemRead` answers exactly when the access is admitted (R71). -/
theorem memRead_eq_next {s : State} {a : Addr} {n : Nat} {r : Word × State} :
    memRead s a n = .next r ↔
      a.toNat + n ≤ accessLimit s.parameters ∧
        r = (wordOfBytes (readBytes s a.toNat n), noteAccess s a.toNat n (.read a.toNat n)) := by
  unfold memRead admitted
  split <;> simp_all [eq_comm]

/-- `MemWrite` answers exactly when the access is admitted (R71). -/
theorem memWrite_eq_next {s t : State} {a : Addr} {n : Nat} {v : Word} :
    memWrite s a n v = .next t ↔
      a.toNat + n ≤ accessLimit s.parameters ∧
        t = noteAccess { s with mem := storeBytes s.parameters s.mem a.toNat (bytesOfWord v n) } a.toNat n
          (.write a.toNat n v) := by
  unfold memWrite admitted
  split <;> simp_all [eq_comm]

theorem memRead_eq_fault {s : State} {a : Addr} {n : Nat} {f : Fault} :
    memRead s a n = .fault f ↔ ¬ a.toNat + n ≤ accessLimit s.parameters ∧ f = .accessBeyondMemory .read a n := by
  unfold memRead admitted
  split <;> simp_all [eq_comm]

theorem memWrite_eq_fault {s : State} {a : Addr} {n : Nat} {v : Word} {f : Fault} :
    memWrite s a n v = .fault f ↔ ¬ a.toNat + n ≤ accessLimit s.parameters ∧ f = .accessBeyondMemory .write a n := by
  unfold memWrite admitted
  split <;> simp_all [eq_comm]

theorem memRead_not_refused (s : State) (a : Addr) (n : Nat) (r : Refusal) : memRead s a n ≠ .refused r := by
  unfold memRead; split <;> simp

theorem memWrite_not_refused (s : State) (a : Addr) (n : Nat) (v : Word) (r : Refusal) :
    memWrite s a n v ≠ .refused r := by
  unfold memWrite; split <;> simp

/-- A RAM byte reads the same whatever reached the platform. -/
@[simp] theorem readByte_noteAccess_ram (s : State) (a n : Nat) (e : BusEvent) {b : Nat}
    (h : isRam s.parameters b = true) :
    readByte (noteAccess s a n e) b = readByte s b := by
  simp [readByte, h]

theorem noteAccess_of_ram {s : State} {a n : Nat} {e : BusEvent} (h : touchesPlatform s.parameters a n = false) :
    noteAccess s a n e = s := by
  simp [noteAccess, h]

theorem noteAccess_busEvents {s : State} {a n : Nat} {e : BusEvent} (h : touchesPlatform s.parameters a n = true) :
    (noteAccess s a n e).busEvents = e :: s.busEvents := by
  simp [noteAccess, h]

/-- All that a data read does (R69, R77). -/
theorem memRead_spec {s : State} {a : Addr} {n : Nat} {r : Word × State} (h : memRead s a n = .next r) :
    SameRegs s r.2 ∧ r.2.pc = s.pc ∧ r.2.mem = s.mem ∧ SameControl s r.2 ∧ ReadAccess s r.2 a n := by
  obtain ⟨-, rfl⟩ := memRead_eq_next.mp h
  refine ⟨fun _ => by simp, by simp, by simp, sameControl_noteAccess .., fun b hb => by simp [hb], fun ht => ?_,
    fun ht => noteAccess_busEvents ht⟩
  simp only [noteAccess_of_ram ht]
  exact .refl s

/-- After storing a list of bytes, a byte of RAM within them reads as its byte, every other byte as before. -/
theorem readByte_storeBytes (s : State) (a b : Nat) (bs : List Byte) :
    readByte { s with mem := storeBytes s.parameters s.mem a bs } b =
      if a ≤ b ∧ b < a + bs.length ∧ isRam s.parameters b = true then bs.getD (b - a) 0#8 else readByte s b := by
  by_cases hb : isRam s.parameters b = true
  · simp [readByte, hb, ramByte_storeBytes]
  · simp [readByte, hb]

/-- All that a data write does (R70, R77). -/
theorem memWrite_spec {s t : State} {a : Addr} {n : Nat} {v : Word} (h : memWrite s a n v = .next t) :
    SameRegs s t ∧ t.pc = s.pc ∧ SameControl s t ∧ WriteAccess s t a n v := by
  obtain ⟨-, rfl⟩ := memWrite_eq_next.mp h
  clear h
  have hbyte := readByte_storeBytes s a.toNat
  generalize hu : ({ s with mem := storeBytes s.parameters s.mem a.toNat (bytesOfWord v n) } : State) = u
  have hp : u.parameters = s.parameters := by rw [← hu]
  have hout : ∀ b, (b < a.toNat ∨ a.toNat + n ≤ b) → readByte u b = readByte s b := fun b h => by
    rw [← hu, hbyte, if_neg]
    rintro ⟨h1, h2, -⟩
    rw [length_bytesOfWord] at h2
    omega
  refine ⟨fun r => by rw [readReg_noteAccess, ← hu]; rfl, by rw [noteAccess_pc, ← hu], ?_, fun k hk hr => ?_,
    fun b hb h => ?_, fun ht => ?_, fun ht => ?_⟩
  · exact SameControl.trans (by rw [← hu]; exact .refl s) (sameControl_noteAccess ..)
  · rw [readByte_noteAccess_ram _ _ _ _ (hp ▸ hr), ← hu, hbyte,
      if_pos ⟨Nat.le_add_right _ _, by rw [length_bytesOfWord]; omega, hr⟩, Nat.add_sub_cancel_left,
      getD_bytesOfWord _ _ _ hk]
  · rw [readByte_noteAccess_ram _ _ _ _ (hp ▸ hb), hout b h]
  · rw [noteAccess_of_ram (hp ▸ ht)]
    exact ⟨by rw [← hu], hout⟩
  · rw [noteAccess_busEvents (hp ▸ ht), ← hu]

/-! ## The invariant through the operations -/

theorem wf_writeReg {s : State} (r : RegId) (v : Word) (h : s.Wf) : (writeReg s r v).Wf := by
  simpa [State.Wf] using h

theorem wf_setPc {s : State} (v : Word) (h : s.Wf) : (setPc s v).Wf := h

theorem wf_advancePc {s : State} (h : s.Wf) : (advancePc s).Wf := h

theorem wf_decrementSp {s : State} (h : s.Wf) : (decrementSp s).Wf := wf_writeReg _ _ h

theorem wf_incrementSp {s : State} (h : s.Wf) : (incrementSp s).Wf := wf_writeReg _ _ h

/-- Only an access outside RAM is delivered. -/
theorem wf_noteAccess {s : State} {a n : Nat} {e : BusEvent}
    (he : touchesPlatform s.parameters a n = true → eventOutsideRam s.parameters e = true) (h : s.Wf) : (noteAccess s a n e).Wf := by
  unfold noteAccess
  split
  · rename_i ht
    exact ⟨h.1, h.2.1, h.2.2.1, h.2.2.2.1, fun x hx =>
      (List.mem_cons.mp hx).elim (fun hxe => hxe ▸ he ht) (h.2.2.2.2 x)⟩
  · exact h

theorem wf_memRead {s : State} {a : Addr} {n : Nat} {r : Word × State} (hr : memRead s a n = .next r) (h : s.Wf) :
    r.2.Wf := by
  obtain ⟨-, rfl⟩ := memRead_eq_next.mp hr
  exact wf_noteAccess id h

theorem wf_memWrite {s t : State} {a : Addr} {n : Nat} {v : Word} (ht : memWrite s a n v = .next t) (h : s.Wf) :
    t.Wf := by
  obtain ⟨-, rfl⟩ := memWrite_eq_next.mp ht
  exact wf_noteAccess id ⟨storeBytes_wf _ _ h.1, h.2⟩

theorem wf_pushWord {s t : State} {f : State → Word} (ht : pushWord s f = .next t) (h : s.Wf) : t.Wf :=
  wf_memWrite ht (wf_decrementSp h)

theorem wf_popPc {s t : State} (ht : popPc s = .next t) (h : s.Wf) : t.Wf := by
  obtain ⟨r, hr, h2⟩ := andThen_eq_next.mp ht
  cases h2
  exact wf_incrementSp (wf_setPc _ (wf_memRead hr h))

theorem wf_interruptEntry {s t : State} (ht : interruptEntry s = .next t) (h : s.Wf) : t.Wf := by
  obtain ⟨u, hu, h2⟩ := andThen_eq_next.mp ht
  cases h2
  exact wf_setPc _ (wf_pushWord hu h)

theorem wf_fetchInstr {s : State} {r : Word × State} (hr : fetchInstr s = .next r) (h : s.Wf) : r.2.Wf := by
  unfold fetchInstr at hr
  split at hr
  · cases hr; exact wf_noteAccess id h
  · cases hr

/-- A fetch leaves all but the platform's events alone (R74). -/
theorem fetchInstr_frame {s : State} {r : Word × State} (hr : fetchInstr s = .next r) :
    SameRegs s r.2 ∧ r.2.pc = s.pc ∧ r.2.mem = s.mem ∧ SameControl s r.2 := by
  unfold fetchInstr at hr
  split at hr
  · cases hr; exact ⟨fun _ => by simp, by simp, by simp, sameControl_noteAccess ..⟩
  · cases hr

/-! ## The stack -/

/-- All that a push does: SP moves down by 8, the value is written at the new SP (R220, R223). -/
theorem pushWord_spec {s t : State} {f : State → Word} (h : pushWord s f = .next t) :
    (∀ r, readReg t r = if r = sp then readReg s sp - 8#64 else readReg s r) ∧ t.pc = s.pc ∧ SameControl s t ∧
      (stackAddr (decrementSp s)).toNat + 8 ≤ accessLimit s.parameters ∧
      WriteAccess s t (stackAddr (decrementSp s)) 8 (f (decrementSp s)) := by
  have hadm := (memWrite_eq_next.mp h).1
  obtain ⟨h1, h2, h3, h4, h5, h6, h7⟩ := memWrite_spec h
  refine ⟨fun r => (h1 r).trans (readReg_decrementSp s r), by simpa using h2,
    (sameControl_writeReg s _ _).trans h3, hadm, h4, fun b hb hout => ?_, fun ht => ⟨?_, fun b hout => ?_⟩, fun ht => ?_⟩
  · simpa using h5 b hb hout
  · simpa using (h6 ht).1
  · simpa using (h6 ht).2 b hout
  · simpa using h7 ht

/-- All that popping the PC does (R222, R234). -/
theorem popPc_spec {s t : State} (h : popPc s = .next t) :
    (∀ r, readReg t r = if r = sp then readReg s sp + 8#64 else readReg s r) ∧
      t.pc = wordOfBytes (readBytes s (stackAddr s).toNat 8) ∧ t.mem = s.mem ∧ SameControl s t ∧
      (stackAddr s).toNat + 8 ≤ accessLimit s.parameters ∧ ReadAccess s t (stackAddr s) 8 := by
  obtain ⟨r, hr, h2⟩ := andThen_eq_next.mp h
  cases h2
  obtain ⟨k1, k2, k3, k4, k5, k6, k7⟩ := memRead_spec hr
  obtain ⟨hadm, hval⟩ := memRead_eq_next.mp hr
  refine ⟨fun i => ?_, ?_, by simpa using k3, ?_, hadm, fun b hb => by simpa using k5 b hb, fun ht => ?_, fun ht => ?_⟩
  · rw [readReg_incrementSp]
    simp only [readReg_setPc, k1 sp, k1 i]
  · simp [hval]
  · exact k4.trans ((sameControl_setPc _ _).trans (sameControl_writeReg _ _ _))
  · exact (k6 ht).trans ((sameBytes_setPc _ _).trans (sameBytes_writeReg _ _ _))
  · simpa using k7 ht

/-- All that interrupt entry does (R290). -/
theorem interruptEntry_spec {s t : State} (h : interruptEntry s = .next t) :
    t.inInterrupt = true ∧ t.interruptEnabled = s.interruptEnabled ∧ t.interruptVector = s.interruptVector ∧
      t.running = s.running ∧ SameTimer s t ∧ t.parameters = s.parameters ∧ t.pc = s.interruptVector ∧
      (∀ r, readReg t r = if r = sp then readReg s sp - 8#64 else readReg s r) ∧
      (stackAddr (decrementSp s)).toNat + 8 ≤ accessLimit s.parameters ∧ WriteAccess s t (stackAddr (decrementSp s)) 8 s.pc := by
  obtain ⟨u, hu, h2⟩ := andThen_eq_next.mp h
  cases h2
  obtain ⟨k1, -, ⟨c1, c2, c3, c4, c5, c6⟩, k4, k5⟩ := pushWord_spec hu
  have hd : stackAddr (decrementSp { s with inInterrupt := true }) = stackAddr (decrementSp s) := by
    simp [stackAddr, readReg_decrementSp]
  have hp : (decrementSp { s with inInterrupt := true }).pc = s.pc := by simp
  rw [hd] at k4
  rw [hd, hp] at k5
  exact ⟨c2, c1, c3, c4, c5, c6, c3, k1, k4, k5⟩

end Sys2Proof.Machine
end

