-- ==== Sys2Proof/Laws/Operands.lean ====
section
/-! SUPPORT. What the operand forms and the shared instruction shapes can do, said once. -/

namespace Sys2Proof.Machine

/-- The bits of a masked value: the low `8 * bytes` bits, zeros above (R10). -/
theorem getLsbD_maskToSize (sz : Size) (v : Word) (i : Nat) :
    (maskToSize sz v).getLsbD i = (decide (i < 8 * sizeBytes sz) && v.getLsbD i) := by
  have key : ∀ k, k ≤ 64 → (v &&& BitVec.ofNat 64 (2 ^ k - 1)).getLsbD i = (decide (i < k) && v.getLsbD i) := by
    intro k hk
    rw [BitVec.getLsbD_and, BitVec.getLsbD_ofNat, Nat.testBit_two_pow_sub_one]
    by_cases h : i < k
    · simp [h, show i < 64 by omega]
    · simp [h]
  cases sz
  · exact key 8 (by omega)
  · exact key 16 (by omega)
  · exact key 32 (by omega)
  · by_cases h : i < 64
    · simp [maskToSize, sizeBytes, h]
    · simp [maskToSize, sizeBytes, h, BitVec.getLsbD_of_ge v i (by omega)]

@[simp] theorem maskToSize_q (v : Word) : maskToSize .q v = v := rfl

@[simp] theorem op3Value_reg (s : State) (rt : RegId) : op3Value s (.reg rt) = readReg s rt := rfl

@[simp] theorem op3Value_imm (s : State) (v : Imm) : op3Value s (.imm v) = zextImm v := rfl

@[simp] theorem moveSourceValue_reg (s : State) (rs : RegId) : moveSourceValue s (.reg rs) = readReg s rs := rfl

@[simp] theorem moveSourceValue_imm (s : State) (v : Imm) : moveSourceValue s (.imm v) = zextImm v := rfl

@[simp] theorem toNat_zextImm (v : Imm) : (zextImm v).toNat = v.toNat := by
  have := v.isLt
  rw [zextImm, BitVec.toNat_setWidth]
  omega

@[simp] theorem toInt_sextImm (v : Imm) : (sextImm v).toInt = v.toInt := by
  simp [sextImm, BitVec.toInt_signExtend_of_le]

/-- All that a register instruction does: it answers, Rd takes the masked value, the PC advances, nothing else
changes. -/
theorem writeMasked_spec (s : State) (sz : Size) (rd : RegId) (v : Word) :
    ∃ t, writeMasked s sz rd v = .next t ∧ RegisterEffect s t rd (maskToSize sz v) :=
  ⟨_, rfl, registerEffect_writeReg s rd _⟩

/-- All that a three-operand instruction does (R160, R180, R190). -/
theorem threeOperand_spec (f : Word → Word → Word) (sz : Size) (rd rs : RegId) (op : Operand3) (s : State) :
    ∃ t, threeOperand f sz rd rs op s = .next t ∧
      RegisterEffect s t rd (maskToSize sz (f (readReg s rs) (op3Value s op))) :=
  writeMasked_spec ..

/-- All that a two-operand instruction does (R168, R184). -/
theorem twoOperand_spec (f : Word → Word) (sz : Size) (rd rs : RegId) (s : State) :
    ∃ t, twoOperand f sz rd rs s = .next t ∧ RegisterEffect s t rd (maskToSize sz (f (readReg s rs))) :=
  writeMasked_spec ..

/-- Setting the PC alone is the whole effect of a jump. -/
theorem jumpEffect_setPc (s : State) (v : Word) : JumpEffect s (setPc s v) v :=
  ⟨rfl, fun _ => rfl, sameControl_setPc .., sameBytes_setPc ..⟩

/-- All that a conditional branch does (R200, R212). -/
theorem conditionalBranch_spec (cond : Word → Word → Bool) (rs rt : RegId) (off : Imm) (s : State) :
    ∃ t, conditionalBranch cond rs rt off s = .next t ∧
      JumpEffect s t (if cond (readReg s rs) (readReg s rt) = true then branchTarget s off else s.pc + 8#64) := by
  unfold conditionalBranch
  split
  · exact ⟨_, rfl, jumpEffect_setPc ..⟩
  · exact ⟨_, rfl, jumpEffect_setPc ..⟩

end Sys2Proof.Machine
end

