-- ==== Sys2Proof/Laws/PerInstr.lean ====
section
/-! SUPPORT. A fact about every instruction as syntax, one lemma per constructor: its canonical encoding is a
well-formed word, with an assigned opcode and zero reserved bits (R104, R110, R334 (c)). -/

namespace Sys2Proof.Laws.CanonicalWord

/-- The canonical word of the instruction is one that software may write. -/
def Statement (i : Instr) : Prop := wordWellFormed (encodeWord i) = true

theorem of_opcode {i : Instr} (h : opcodeAssigned (fieldsOfInstr i).opcode = true) : Statement i :=
  wordWellFormed_wordOfFields h

theorem move (sz : Size) (rd : RegId) (src : MoveSource) : Statement (.move sz rd src) := by
  cases src <;> exact of_opcode rfl

theorem movt (rd : RegId) (imm : Imm) : Statement (.movt rd imm) := of_opcode rfl

theorem moveq (rd : RegId) (imm : Imm) : Statement (.moveq rd imm) := of_opcode rfl

theorem lea (rd rs : RegId) (disp : Imm) : Statement (.lea rd rs disp) := of_opcode rfl

theorem load (sz : Size) (rd rs : RegId) (disp : Imm) : Statement (.load sz rd rs disp) := of_opcode rfl

theorem store (sz : Size) (rd rs : RegId) (disp : Imm) : Statement (.store sz rd rs disp) := of_opcode rfl

theorem add (sz : Size) (rd rs : RegId) (op : Operand3) : Statement (.add sz rd rs op) := by
  cases op <;> exact of_opcode rfl

theorem sub (sz : Size) (rd rs : RegId) (op : Operand3) : Statement (.sub sz rd rs op) := by
  cases op <;> exact of_opcode rfl

theorem mulu (sz : Size) (rd rs : RegId) (op : Operand3) : Statement (.mulu sz rd rs op) := by
  cases op <;> exact of_opcode rfl

theorem muls (sz : Size) (rd rs : RegId) (op : Operand3) : Statement (.muls sz rd rs op) := by
  cases op <;> exact of_opcode rfl

theorem divu (sz : Size) (rd rs : RegId) (op : Operand3) : Statement (.divu sz rd rs op) := by
  cases op <;> exact of_opcode rfl

theorem divs (sz : Size) (rd rs : RegId) (op : Operand3) : Statement (.divs sz rd rs op) := by
  cases op <;> exact of_opcode rfl

theorem mod (sz : Size) (rd rs : RegId) (op : Operand3) : Statement (.mod sz rd rs op) := by
  cases op <;> exact of_opcode rfl

theorem neg (sz : Size) (rd rs : RegId) : Statement (.neg sz rd rs) := of_opcode rfl

theorem and (sz : Size) (rd rs : RegId) (op : Operand3) : Statement (.and sz rd rs op) := by
  cases op <;> exact of_opcode rfl

theorem or (sz : Size) (rd rs : RegId) (op : Operand3) : Statement (.or sz rd rs op) := by
  cases op <;> exact of_opcode rfl

theorem eor (sz : Size) (rd rs : RegId) (op : Operand3) : Statement (.eor sz rd rs op) := by
  cases op <;> exact of_opcode rfl

theorem not (sz : Size) (rd rs : RegId) : Statement (.not sz rd rs) := of_opcode rfl

theorem lsl (sz : Size) (rd rs : RegId) (op : Operand3) : Statement (.lsl sz rd rs op) := by
  cases op <;> exact of_opcode rfl

theorem lsr (sz : Size) (rd rs : RegId) (op : Operand3) : Statement (.lsr sz rd rs op) := by
  cases op <;> exact of_opcode rfl

theorem asr (sz : Size) (rd rs : RegId) (op : Operand3) : Statement (.asr sz rd rs op) := by
  cases op <;> exact of_opcode rfl

theorem bra (off : Imm) : Statement (.bra off) := of_opcode rfl

theorem beq (rs rt : RegId) (off : Imm) : Statement (.beq rs rt off) := of_opcode rfl

theorem bne (rs rt : RegId) (off : Imm) : Statement (.bne rs rt off) := of_opcode rfl

theorem blt (rs rt : RegId) (off : Imm) : Statement (.blt rs rt off) := of_opcode rfl

theorem bge (rs rt : RegId) (off : Imm) : Statement (.bge rs rt off) := of_opcode rfl

theorem bgt (rs rt : RegId) (off : Imm) : Statement (.bgt rs rt off) := of_opcode rfl

theorem ble (rs rt : RegId) (off : Imm) : Statement (.ble rs rt off) := of_opcode rfl

theorem bhi (rs rt : RegId) (off : Imm) : Statement (.bhi rs rt off) := of_opcode rfl

theorem bls (rs rt : RegId) (off : Imm) : Statement (.bls rs rt off) := of_opcode rfl

theorem jsr (off : Imm) : Statement (.jsr off) := of_opcode rfl

theorem rts : Statement .rts := of_opcode rfl

theorem push (rs : RegId) : Statement (.push rs) := of_opcode rfl

theorem pop (rd : RegId) : Statement (.pop rd) := of_opcode rfl

theorem nop : Statement .nop := of_opcode rfl

theorem halt : Statement .halt := of_opcode rfl

theorem sei : Statement .sei := of_opcode rfl

theorem cli : Statement .cli := of_opcode rfl

theorem rti : Statement .rti := of_opcode rfl

theorem wait (usec : Imm) : Statement (.wait usec) := of_opcode rfl

end Sys2Proof.Laws.CanonicalWord
end

