-- ==== Sys2Proof/Laws/Timer.lean ====
section
/-! SUPPORT. What a timer tick can do, said once (R286). -/

namespace Sys2Proof.Machine

/-- The check performs interrupt entry exactly when interrupts are enabled and none is in service (R289). -/
theorem interruptCheck_eq_next {s t : State} :
    interruptCheck s = .next t ↔
      (s.interruptEnabled = true ∧ s.inInterrupt = false ∧ interruptEntry s = .next t) ∨
        (¬ (s.interruptEnabled = true ∧ s.inInterrupt = false) ∧ t = s) := by
  unfold interruptCheck
  cases h1 : s.interruptEnabled <;> cases h2 : s.inInterrupt <;> simp [eq_comm]

/-- The four ways a tick answers: the timer is off; the counter moves; the count was 0; the count moves without
reaching 0; or it expires (R286). -/
theorem timerTick_eq_next {s t : State} :
    timerTick s = .next t ↔
      (s.timerEnabled = false ∧ t = s) ∨
      (s.timerEnabled = true ∧ s.cycleCounter + 1 < Config.sampleRate ∧
        t = { s with cycleCounter := s.cycleCounter + 1 }) ∨
      (s.timerEnabled = true ∧ Config.sampleRate ≤ s.cycleCounter + 1 ∧ s.timerCount = 0#64 ∧
        t = timerRestart { s with cycleCounter := 0 }) ∨
      (s.timerEnabled = true ∧ Config.sampleRate ≤ s.cycleCounter + 1 ∧ s.timerCount ≠ 0#64 ∧
        s.timerCount - 1#64 ≠ 0#64 ∧ t = { s with cycleCounter := 0, timerCount := s.timerCount - 1#64 }) ∨
      (s.timerEnabled = true ∧ Config.sampleRate ≤ s.cycleCounter + 1 ∧ s.timerCount ≠ 0#64 ∧
        s.timerCount - 1#64 = 0#64 ∧
        ∃ u, interruptCheck { s with
          cycleCounter := 0, timerCount := s.timerCount - 1#64, timerState := Config.timerExpired } = .next u ∧
          t = reloadCount u) := by
  unfold timerTick timerDecrement timerExpire
  constructor
  · intro h
    split at h
    · rename_i h1
      split at h
      · rename_i h2
        split at h
        · cases h; exact .inr (.inr (.inl ⟨h1, h2, ‹_›, rfl⟩))
        · split at h
          · obtain ⟨u, hu, h⟩ := andThen_eq_next.mp h
            cases h
            exact .inr (.inr (.inr (.inr ⟨h1, h2, ‹_›, ‹_›, u, hu, rfl⟩)))
          · cases h; exact .inr (.inr (.inr (.inl ⟨h1, h2, ‹_›, ‹_›, rfl⟩)))
      · cases h; exact .inr (.inl ⟨h1, Nat.lt_of_not_ge ‹_›, rfl⟩)
    · cases h; exact .inl ⟨Bool.eq_false_iff.mpr ‹_›, rfl⟩
  · rintro (⟨h1, rfl⟩ | ⟨h1, h2, rfl⟩ | ⟨h1, h2, h3, rfl⟩ | ⟨h1, h2, h3, h4, rfl⟩ | ⟨h1, h2, h3, h4, u, hu, rfl⟩)
    · rw [if_neg (Bool.eq_false_iff.mp h1)]
    · rw [if_pos h1, if_neg (Nat.not_le_of_lt h2)]
    · rw [if_pos h1, if_pos h2, if_pos h3]
    · rw [if_pos h1, if_pos h2, if_neg h3, if_neg h4]
    · rw [if_pos h1, if_pos h2, if_neg h3, if_pos h4, andThen_eq_next]
      exact ⟨u, hu, rfl⟩

/-- A tick leaves the parameters of memory alone (R6). -/
theorem timerTick_parameters {s t : State} (ht : timerTick s = .next t) : t.parameters = s.parameters := by
  rcases timerTick_eq_next.mp ht with ⟨-, rfl⟩ | ⟨-, -, rfl⟩ | ⟨-, -, -, rfl⟩ | ⟨-, -, -, -, rfl⟩ |
    ⟨-, -, -, -, u, hu, rfl⟩
  · rfl
  · rfl
  · rw [timerRestart_parameters]
  · rfl
  · rw [reloadCount_parameters]
    rcases interruptCheck_eq_next.mp hu with ⟨-, -, he⟩ | ⟨-, rfl⟩
    · exact (interruptEntry_spec he).2.2.2.2.2.1
    · rfl

theorem wf_reloadCount {s : State} (h : s.Wf) : (reloadCount s).Wf := by
  simpa [State.Wf] using h

theorem wf_interruptCheck {s t : State} (ht : interruptCheck s = .next t) (h : s.Wf) : t.Wf := by
  rcases interruptCheck_eq_next.mp ht with ⟨-, -, he⟩ | ⟨-, rfl⟩
  · exact wf_interruptEntry he h
  · exact h

/-- A tick keeps the invariant. -/
theorem wf_timerTick {s t : State} (ht : timerTick s = .next t) (h : s.Wf) : t.Wf := by
  obtain ⟨h1, h2, h3, h4, h5⟩ := h
  have hz : 0 < Config.sampleRate := by decide
  rcases timerTick_eq_next.mp ht with ⟨-, rfl⟩ | ⟨-, hc, rfl⟩ | ⟨-, -, -, rfl⟩ | ⟨-, -, -, -, rfl⟩ |
    ⟨-, -, -, -, u, hu, rfl⟩
  · exact ⟨h1, h2, h3, h4, h5⟩
  · exact ⟨h1, h2, hc, h4, h5⟩
  · unfold timerRestart
    split
    · exact ⟨h1, h2, hz, h4, h5⟩
    · exact ⟨h1, h2, hz, .inr (.inl rfl), h5⟩
  · exact ⟨h1, h2, hz, h4, h5⟩
  · exact wf_reloadCount (wf_interruptCheck hu ⟨h1, h2, hz, .inr (.inr rfl), h5⟩)

end Sys2Proof.Machine
end

