-- ==== Sys2Proof/Machine/Assembler.lean ====
section
/-! DEFINITION. The assembler: labels (R253), directives (R252), macros (R254, R255), conditional and repeat blocks
(R256, R257), and the two passes (R260). It answers an image: pieces of bytes, each with its address. -/

namespace Sys2Proof.Asm

/-- What a name stands for (R252, R253). -/
inductive SymbolKind where
  | label | equ | set
deriving DecidableEq, Repr

/-- A name and its value. -/
structure Symbol where
  name : Text
  kind : SymbolKind
  value : Word
deriving DecidableEq, Repr

/-- A line to be assembled: its text, the macro expansions it stands in (R254), the files it stands in, innermost
first (R252). -/
structure Line where
  text : Text
  depth : Nat
  files : List Text
deriving DecidableEq, Repr

/-- A conditional block that is open (R256). -/
inductive Cond where
  /-- this part is assembled -/
  | on
  /-- this part is skipped, an `else` is assembled -/
  | off
  /-- the whole block is skipped, since it stands in a skipped part -/
  | dead
deriving DecidableEq, Repr

/-- What the assembly is given. -/
structure Source where
  mainFile : Text
  main : Text
  /-- the files that `include` finds -/
  texts : List (Text × Text)
  /-- the files that `incbin` finds -/
  binaries : List (Text × List Byte)
deriving DecidableEq, Repr

/-- The state of a pass. -/
structure Pass where
  /-- pass 2, on which every name has a value (R260) -/
  final : Bool
  /-- the symbols that pass 1 left -/
  known : List Symbol
  /-- the symbols this pass has defined, newest first -/
  symbols : List Symbol
  /-- the address of the next byte; `none` before any `org` (log 30) -/
  pc : Option Nat
  /-- the global label that local labels belong to (R253) -/
  scope : Text
  /-- the macros, names in small letters -/
  macros : List (Text × List Text)
  conds : List Cond
  /-- the bytes so far, last piece first -/
  image : List (Nat × List Byte)
deriving DecidableEq, Repr

/-! ## Names -/

/-- "Local labels are stored internally as `global_label.local_label`" (R253). A local label before any global one is
not stated. DESIGN CHOICE: it, and a reference to it, stand under the bare name with its dot (log 28). -/
def fullName (p : Pass) (n : Text) : Text :=
  match n with
  | '.' :: _ => p.scope ++ n
  | _ => n

/-- The newest symbol of a name. -/
def findSymbol (l : List Symbol) (n : Text) : Option Symbol := l.find? (·.name == n)

/-- What this pass has defined goes before what pass 1 left (log 29). -/
def lookupOf (p : Pass) : Lookup where
  final := p.final
  value n :=
    match findSymbol p.symbols (fullName p n), findSymbol p.known (fullName p n) with
    | some s, _ => some s.value
    | none, some s => some s.value
    | none, none => none

/-- Define a name: a `set` name may be set again, any other name stands once (R252; for labels and for a name of two
kinds log 29); a label has the address of pass 1 (log 29). DESIGN CHOICE: the value of a constant may differ between
the passes, and the name of a constant is not checked (log 29). -/
def define (p : Pass) (n : Text) (kind : SymbolKind) (v : Word) : Answer Pass :=
  match findSymbol p.symbols n with
  | some s =>
    if s.kind = .set && kind = .set then .ok { p with symbols := ⟨n, kind, v⟩ :: p.symbols }
    else .error (.redefined n)
  | none =>
    match findSymbol p.known n with
    | some s =>
      if kind = .label && s.value != v then .error (.labelMoved n)
      else .ok { p with symbols := ⟨n, kind, v⟩ :: p.symbols }
    | none => .ok { p with symbols := ⟨n, kind, v⟩ :: p.symbols }

/-- The address of the next byte. -/
def here (p : Pass) : Answer Nat :=
  match p.pc with
  | some a => .ok a
  | none => .error .noOrigin

/-- Define a label where the pass stands; a global label opens a scope of local ones (R253). DESIGN
CHOICE: the name of a label is not checked, so it may be that of a register, a mnemonic or a directive (log 29). -/
def defineLabel (p : Pass) (n : Text) : Answer Pass := do
  let a ← here p
  let q ← define p (fullName p n) .label (BitVec.ofNat 64 a)
  match n with
  | '.' :: _ => pure q
  | _ => pure { q with scope := n }

/-- Emit bytes at the address of the next byte. DESIGN CHOICE: no padding goes before them, so data of any width may
stand at any address unless `align` is written (log 30). -/
def emit (p : Pass) (bs : List Byte) : Answer Pass := do
  let a ← here p
  pure { p with pc := some (a + bs.length), image := (a, bs) :: p.image }

/-- A count or an address: an expression that is not negative and otherwise of any size. DESIGN CHOICE: it is checked on
both passes, so a forward reference, which is 0 on pass 1 (R260), may stop the assembly there (log 26). -/
def countOf (p : Pass) (t : Text) : Answer Nat := do
  let v ← evalText (lookupOf p) t
  if v.toInt < 0 then .error (.outOfRange v.toInt) else pure v.toNat

/-! ## Macros (R254, R255) -/

/-- The arguments of an invocation: separated by commas or blanks outside quotes (R255). An empty argument between two
commas is not stated. DESIGN CHOICE: it is no argument, so those behind it move down and `narg` does not count it
(log 28). -/
def macroArguments (t : Text) : List Text :=
  (splitOutside (fun c => c == ',' || isBlank c) none false t).filter (· != [])

/-- The text begins with `narg` in capitals or small letters, as a whole name. -/
def startsNarg (t : Text) : Bool :=
  lower (t.take 4) == ['n', 'a', 'r', 'g'] && !((t.drop 4).take 1).any inName

/-- A line of a macro's body for an invocation: `\1` to `\9` are the arguments, `narg` is their number (R254); an
argument that is not given is no text, and both are replaced inside quotes too (DESIGN CHOICE, log 28). `inside`: the character before belongs to a name; `skip`: characters
already dealt with. -/
def substitute (args : List Text) (inside : Bool) (skip : Nat) : Text → Text
  | [] => []
  | c :: rest =>
    match skip with
    | k + 1 => substitute args (inName c) k rest
    | 0 =>
      if c == '\\' then
        match rest with
        | d :: _ =>
          if isDigit d && d != '0' then args.getD (d.toNat - '1'.toNat) [] ++ substitute args true 1 rest
          else c :: d :: substitute args false 1 rest
        | [] => [c]
      else if !inside && startsNarg (c :: rest) then digitOf args.length :: substitute args true 3 rest
      else c :: substitute args (inName c) 0 rest

/-- The lines of an invocation in front of the lines that follow it. "Up to 9 parameters are supported" and "Expansion
depth is limited to 100 levels" (R254); what more than 9 arguments or a deeper expansion do is not stated. DESIGN
CHOICE: either stops the assembly by name, and a block that the body opens may be closed
behind the invocation (log 28). -/
def invoke (body : List Text) (argText : Text) (l : Line) (rest : List Line) : Answer (List Line) :=
  if l.depth ≥ 100 then .error .macroDepth
  else if (macroArguments argText).length > 9 then .error .tooManyArguments
  else
    .ok (body.map (fun t => ⟨substitute (macroArguments argText) false 0 t, l.depth + 1, l.files⟩) ++ rest)

/-! ## Blocks -/

/-- The first word of a line in small letters. -/
def keyword (t : Text) : String := String.ofList (lower (firstWord (trim (stripComment t))).1)

/-- The second word of a line in small letters. -/
def secondWord (t : Text) : String := keyword (firstWord (trim (stripComment t))).2

/-- The lines of a block and the lines behind it: up to the closing word of this block, `deep` blocks of the same kind
inside it. DESIGN CHOICE: opening and closing words count as the first word of a line only, whether or not a
conditional skips the line; the block may reach beyond the macro body or the included file that opens it; words that an
invocation or an `include` inside it would bring are not seen (log 28). -/
def takeBlock (opens closes : Text → Bool) (deep : Nat) : List Line → Option (List Line × List Line)
  | [] => none
  | l :: rest =>
    if closes l.text then
      match deep with
      | 0 => some ([], rest)
      | k + 1 => (takeBlock opens closes k rest).map fun r => (l :: r.1, r.2)
    else (takeBlock opens closes (if opens l.text then deep + 1 else deep) rest).map fun r => (l :: r.1, r.2)

/-- Some copies of a list, one behind the other. -/
def repeated (block : List Line) : Nat → List Line
  | 0 => []
  | n + 1 => block ++ repeated block n

/-! ## Directives (R252) -/

/-- Bytes of the operands of `dc`: in `dc.b` a string gives one byte for each character (R252, R261); a string elsewhere
stops the assembly, and no operand at all gives no byte (DESIGN CHOICE, log 30). -/
def dataBytes (p : Pass) (sz : Nat) : List Text → Answer (List Byte)
  | [] => .ok []
  | t :: ts => do
    let bs ←
      match insideQuotes t with
      | some s =>
        match sz, quotedBytes s with
        | 1, some bs => Except.ok bs
        | _, _ => .error (.syntaxError t)
      | none => do
        let v ← evalText (lookupOf p) t
        let v ← if sz = 8 then pure v else fit (lookupOf p) (-2 ^ (8 * sz - 1)) (2 ^ (8 * sz) - 1) v
        pure (bytesOfWord v sz)
    let more ← dataBytes p sz ts
    pure (bs ++ more)

/-- The bytes of `incbin`: the whole file, or a part of it (R252); a part that is not there stops the assembly
(log 30). -/
def binaryBytes (src : Source) (p : Pass) (ops : List Text) : Answer (List Byte) :=
  match ops with
  | [f] =>
    match insideQuotes f with
    | some n =>
      match src.binaries.find? (·.1 == n) with
      | some b => .ok b.2
      | none => .error (.noFile n)
    | none => .error (.syntaxError f)
  | [f, o, n] => do
    let whole ←
      match insideQuotes f with
      | some name =>
        match src.binaries.find? (·.1 == name) with
        | some b => Except.ok b.2
        | none => .error (.noFile name)
      | none => .error (.syntaxError f)
    let o ← countOf p o
    let n ← countOf p n
    if o + n ≤ whole.length then pure ((whole.drop o).take n) else .error (.noFile f)
  | _ => .error (.syntaxError [])

/-- The lines of an included file in front of the lines that follow (R252). DESIGN CHOICE: the file shares names,
scope, macros and open blocks of every kind with the line that includes it, so a block it opens may be closed behind
it, and may be included twice, one after the other (logs 28 and 30). -/
def includeFile (src : Source) (l : Line) (rest : List Line) (t : Text) : Answer (List Line) :=
  match insideQuotes t with
  | some n =>
    if l.files.contains n then .error (.circularInclude n)
    else
      match src.texts.find? (·.1 == n) with
      | some f => .ok ((linesOf f.2).map (fun t => ⟨t, l.depth, n :: l.files⟩) ++ rest)
      | none => .error (.noFile n)
  | none => .error (.syntaxError t)

/-- Zero bytes (R252). -/
def zeros (n : Nat) : List Byte := List.replicate n 0#8

/-- A directive that emits bytes or sets the address (R252); `none` if the word is none. DESIGN CHOICE: `align` takes
any count but 0 on both passes, so no forward reference, and `org` may go back (logs 26 and 30). -/
def dataDirective (src : Source) (p : Pass) (word : String) (t : Text) : Option (Answer Pass) :=
  match word with
  | "org" => some do
    let a ← countOf p t
    pure { p with pc := some a }
  | "dc.b" => some do emit p (← dataBytes p 1 (operandsOf t))
  | "dc.w" => some do emit p (← dataBytes p 2 (operandsOf t))
  | "dc.l" => some do emit p (← dataBytes p 4 (operandsOf t))
  | "dc.q" => some do emit p (← dataBytes p 8 (operandsOf t))
  | "ds.b" => some do emit p (zeros (← countOf p t))
  | "ds.w" => some do emit p (zeros (2 * (← countOf p t)))
  | "ds.l" => some do emit p (zeros (4 * (← countOf p t)))
  | "ds.q" => some do emit p (zeros (8 * (← countOf p t)))
  | "align" => some do
    let n ← countOf p t
    let a ← here p
    if n = 0 then .error (.outOfRange 0) else emit p (zeros ((n - a % n) % n))
  | "incbin" => some do emit p (← binaryBytes src p (operandsOf t))
  | _ => none

/-- The bytes of the instructions a line stands for (R104, R115, R251). DESIGN CHOICE: they stand at the address of the
next byte, whatever it is; no padding goes before them (log 30). -/
def assembleInstr (p : Pass) (mnemonic t : Text) : Answer Pass := do
  let a ← here p
  let is ← instructions (lookupOf p) (BitVec.ofNat 64 a) mnemonic (operandsOf t)
  emit p (is.flatMap encode)

/-! ## Conditional assembly (R256) -/

/-- Everything open is assembled. -/
def assembling (p : Pass) : Bool := p.conds.all (· == .on)

/-- `else` "toggles assembly for the alternative block" (R256). A second `else` is not stated. DESIGN CHOICE: it
toggles again (log 28). -/
def Cond.toggle : Cond → Cond
  | .on => .off
  | .off => .on
  | .dead => .dead

/-- `if`, `else` and `endif`; `none` if the word is none of them. DESIGN CHOICE: an `else` or `endif` without its `if`
stops the assembly, and text behind these two words is not looked at (log 28). -/
def conditional (p : Pass) (word : String) (t : Text) : Option (Answer Pass) :=
  match word, p.conds with
  | "if", cs => some (
    if assembling p then do
      let v ← evalText (lookupOf p) t
      pure { p with conds := (if v = 0#64 then .off else .on) :: cs }
    else pure { p with conds := .dead :: cs })
  | "else", c :: cs => some (.ok { p with conds := c.toggle :: cs })
  | "endif", _ :: cs => some (.ok { p with conds := cs })
  | "else", [] => some (.error (.unbalanced ['e', 'l', 's', 'e']))
  | "endif", [] => some (.error (.unbalanced ['e', 'n', 'd', 'i', 'f']))
  | _, _ => none

/-! ## Lines and passes -/

/-- A line without its label: a macro invocation first (R255), then the directives, then the instructions. The first
`endm` closes a macro's body (log 28). DESIGN CHOICE: a second definition of a macro's name is an invocation with
`macro` as its argument, since macros are looked up first, and its `endm` then stops the assembly (log 28); a macro is
invoked only behind its definition, and a line whose second word is `equ`, `set` or `macro` is a definition whatever
its first word is (logs 28 and 29). Answers the lines that follow and the pass. -/
def assembleLine (src : Source) (p : Pass) (l : Line) (t : Text) (rest : List Line) : Answer (List Line × Pass) :=
  let word := lower (firstWord t).1
  let arg := (firstWord t).2
  match p.macros.find? (·.1 == word) with
  | some m => do
    let ls ← invoke m.2 arg l rest
    pure (ls, p)
  | none =>
    match secondWord t, String.ofList word with
    | "equ", _ => do
      let v ← evalText (lookupOf p) (firstWord arg).2
      let q ← define p (fullName p (firstWord t).1) .equ v
      pure (rest, q)
    | "set", _ => do
      let v ← evalText (lookupOf p) (firstWord arg).2
      let q ← define p (fullName p (firstWord t).1) .set v
      pure (rest, q)
    | "macro", _ =>
      match takeBlock (fun _ => false) (fun t => keyword t == "endm") 0 rest with
      | some (body, rest) => .ok (rest, { p with macros := (word, body.map Line.text) :: p.macros })
      | none => .error (.unbalanced t)
    | _, "rept" =>
      match takeBlock (fun t => keyword t == "rept") (fun t => keyword t == "endr") 0 rest with
      | some (block, rest) => do
        let n ← countOf p arg
        pure (repeated block n ++ rest, p)
      | none => .error (.unbalanced t)
    | _, "endm" => .error (.unbalanced t)
    | _, "endr" => .error (.unbalanced t)
    | _, "include" => do
      let ls ← includeFile src l rest arg
      pure (ls, p)
    | _, name =>
      match dataDirective src p name arg with
      | some q => do pure (rest, ← q)
      | none => do pure (rest, ← assembleInstr p word arg)

/-- The label a line begins with, and the rest of the line (R253). DESIGN CHOICE: the label may be indented,
the colon follows the name at once, and an instruction, a directive or an invocation may stand behind it (log 28). -/
def splitLabel (t : Text) : Option (Text × Text) :=
  match t with
  | [] => none
  | c :: _ =>
    if startsName c then
      match t.dropWhile inName with
      | ':' :: rest => some (t.takeWhile inName, trim rest)
      | _ => none
    else none

/-- One line: comments go, a skipped part is skipped but for its conditional words, a label is defined. Whether the
column matters is not stated. DESIGN CHOICE: blanks before the first word are dropped, so a label, the name of a
constant or macro, a directive and an instruction may each begin in any column (log 31). Whether a macro
may be named `if`, `else` or `endif` is not stated. DESIGN CHOICE: the conditional words come before the macros, so
such a macro is never invoked, and they are recognised only as the first word of a line, not behind a label
(log 28). -/
def assembleOne (src : Source) (p : Pass) (l : Line) (rest : List Line) : Answer (List Line × Pass) :=
  let t := trim (stripComment l.text)
  match conditional p (keyword t) (firstWord t).2 with
  | some q => do pure (rest, ← q)
  | none =>
    if t = [] || !assembling p then .ok (rest, p)
    else
      match splitLabel t with
      | some (n, after) => do
        let q ← defineLabel p n
        if after = [] then pure (rest, q) else assembleLine src q l after rest
      | none => assembleLine src p l t rest

/-- All lines of a pass; `fuel` bounds how many lines are read, those of expansions and repeats included. -/
def runPass (src : Source) (fuel : Nat) (lines : List Line) (p : Pass) : Answer Pass :=
  match fuel, lines with
  | _, [] => if p.conds = [] then .ok p else .error (.unbalanced ['i', 'f'])
  | 0, _ :: _ => .error .tooManyLines
  | fuel + 1, l :: rest => do
    let (ls, q) ← assembleOne src p l rest
    runPass src fuel ls q

/-- A pass at its start. -/
def startPass (final : Bool) (known : List Symbol) : Pass :=
  ⟨final, known, [], none, [], [], [], []⟩

/-- The lines of the main file. -/
def mainLines (src : Source) : List Line :=
  (linesOf src.main).map fun t => ⟨t, 0, [src.mainFile]⟩

/-- Pass 1 collects the labels, pass 2 emits the code with every name resolved (R260). The image is in the order of
the source. -/
def assemble (fuel : Nat) (src : Source) : Answer (List (Nat × List Byte)) := do
  let first ← runPass src fuel (mainLines src) (startPass false [])
  let second ← runPass src fuel (mainLines src) (startPass true first.symbols)
  pure second.image.reverse

/-- The image of one source text without other files. -/
def assembleText (fuel : Nat) (t : Text) : Answer (List (Nat × List Byte)) :=
  assemble fuel ⟨[], t, [], []⟩

end Sys2Proof.Asm
end

