-- ==== Sys2Proof/Machine/HostActions.lean ====
section
/-! DEFINITION. What the host does to the CPU outside a step (R305, R324, D30): load an image, set the vector, set
the timer, start execution. The host can do nothing else; the model's step never does any of it (log 16). -/

namespace Sys2Proof.Machine

/-- Place bytes in RAM from an address on (R324 (2)). -/
def hostLoad (s : State) (a : Nat) (bs : List Byte) : State :=
  { s with mem := storeBytes s.parameters s.mem a bs }

/-- Set `interruptVector` (R43, R291, R324 (3)). -/
def hostSetVector (s : State) (v : Word) : State :=
  { s with interruptVector := v }

/-- What the host may set of the timer (R44 to R48, R284, V15). -/
structure TimerSetting where
  enabled : Bool
  count : Word
  period : Word
  timerState : BitVec 32
  cycleCounter : Nat
deriving DecidableEq, Repr

/-- Set the timer fields (R284, R324 (3)). -/
def hostSetTimer (s : State) (t : TimerSetting) : State :=
  { s with
    timerEnabled := t.enabled, timerCount := t.count, timerPeriod := t.period, timerState := t.timerState,
    cycleCounter := t.cycleCounter }

/-- Start execution: `running <- true` (R49, R324 (4)). -/
def hostStart (s : State) : State :=
  { s with running := true }

/-- The host's launch: reset, load each piece of the image, set vector and timer, start (R324). Its arguments are the
parameters of R6. -/
def launch (parameters : Parameters) (image : List (Nat × List Byte)) (vector : Word) (timer : TimerSetting) : State :=
  hostStart (hostSetTimer (hostSetVector
    (image.foldl (fun s p => hostLoad s p.1 p.2) (State.resetOn parameters)) vector) timer)

/-- The timer fields as reset leaves them (R53): the default launch premise (D30). -/
def timerOff : TimerSetting := ⟨false, 0, 0, Config.timerStopped, 0⟩

end Sys2Proof.Machine
end

