-- ==== Sys2Proof/Tests/Slice0.lean ====
section
/-! SUPPORT. The model's own tests. Every expected value is the spec's: the vectors of spec/95_test_vectors.md are named
in the theorem (T4.7 is `T4_7`), the bytes are written from the encoding tables of spec/30_encoding.md. Each machine
test is one step. At the end, a state and operands that meet the hypotheses of each statement. -/

namespace Sys2Proof.Tests

-- one theorem at a time: fewer compiler threads, each of which reserves its own stack
set_option Elab.async false

open Sys2Proof Sys2Proof.Machine

/-! ## Well-formedness: an ill-formed word for each check -/

theorem test_wf_canonical : wordWellFormed 0x0000000010081E20 = true := by decide

/-- Opcode 0x05 is in no range (R111, R112). -/
theorem test_wf_refuses_unassigned_opcode :
    opcodeAssigned 0x05 = false ∧ wordWellFormed 0x0000000010081E05 = false := by decide

/-- A reserved bit of byte 2 (R102). -/
theorem test_wf_refuses_reserved_byte2 :
    reservedByte2Zero 0x0000000010091E20 = false ∧ wordWellFormed 0x0000000010091E20 = false := by decide

/-- A reserved bit of byte 3 (R102). -/
theorem test_wf_refuses_reserved_byte3 :
    reservedByte3Zero 0x0000000014081E20 = false ∧ wordWellFormed 0x0000000014081E20 = false := by decide

/-! ## Decoding: every constructor, from bytes written out (R101, R110) -/

theorem test_decode_move_imm : decode [0x01, 0x2D, 0x00, 0x00, 0xBE, 0xBA, 0xFE, 0xCA] = .ok (.move .l 5 (.imm 0xCAFEBABE)) := by decide
theorem test_decode_move_reg : decode [0x01, 0x0A, 0x10, 0x00, 0x00, 0x00, 0x00, 0x00] = .ok (.move .w 1 (.reg 2)) := by decide
theorem test_decode_movt : decode [0x02, 0x2F, 0x00, 0x00, 0xEF, 0xBE, 0xAD, 0xDE] = .ok (.movt 5 0xDEADBEEF) := by decide
theorem test_decode_moveq : decode [0x03, 0x2F, 0x00, 0x00, 0xFF, 0xFF, 0xFF, 0x7F] = .ok (.moveq 5 0x7FFFFFFF) := by decide
theorem test_decode_lea : decode [0x04, 0x2F, 0x10, 0x00, 0xF0, 0xFF, 0xFF, 0xFF] = .ok (.lea 5 2 0xFFFFFFF0) := by decide
theorem test_decode_load : decode [0x10, 0x09, 0x10, 0x00, 0xFF, 0xFF, 0xFF, 0xFF] = .ok (.load .b 1 2 0xFFFFFFFF) := by decide
theorem test_decode_store : decode [0x11, 0x39, 0x50, 0x00, 0x04, 0x00, 0x00, 0x00] = .ok (.store .b 7 10 4) := by decide
theorem test_decode_add : decode [0x20, 0x1E, 0x08, 0x10, 0x00, 0x00, 0x00, 0x00] = .ok (.add .q 3 1 (.reg 2)) := by decide
theorem test_decode_sub : decode [0x21, 0x17, 0x10, 0x00, 0x01, 0x00, 0x00, 0x00] = .ok (.sub .q 2 2 (.imm 1)) := by decide
theorem test_decode_mulu : decode [0x22, 0x0E, 0x08, 0x10, 0x00, 0x00, 0x00, 0x00] = .ok (.mulu .q 1 1 (.reg 2)) := by decide
theorem test_decode_muls : decode [0x23, 0x1F, 0x08, 0x00, 0xFF, 0xFF, 0xFF, 0xFF] = .ok (.muls .q 3 1 (.imm 0xFFFFFFFF)) := by decide
theorem test_decode_divu : decode [0x24, 0x46, 0x18, 0x00, 0x00, 0x00, 0x00, 0x00] = .ok (.divu .q 8 3 (.reg 0)) := by decide
theorem test_decode_divs : decode [0x25, 0x36, 0x20, 0x28, 0x00, 0x00, 0x00, 0x00] = .ok (.divs .q 6 4 (.reg 5)) := by decide
theorem test_decode_mod : decode [0x26, 0x3F, 0x18, 0x00, 0x0A, 0x00, 0x00, 0x00] = .ok (.mod .q 7 3 (.imm 10)) := by decide
theorem test_decode_neg : decode [0x27, 0x66, 0x20, 0x00, 0x00, 0x00, 0x00, 0x00] = .ok (.neg .q 12 4) := by decide
theorem test_decode_and : decode [0x30, 0x1F, 0x08, 0x00, 0xFF, 0xFF, 0xFF, 0xFF] = .ok (.and .q 3 1 (.imm 0xFFFFFFFF)) := by decide
theorem test_decode_or : decode [0x31, 0x1B, 0x08, 0x00, 0x00, 0x80, 0x00, 0x00] = .ok (.or .w 3 1 (.imm 0x8000)) := by decide
theorem test_decode_eor : decode [0x32, 0x6E, 0x10, 0x18, 0x00, 0x00, 0x00, 0x00] = .ok (.eor .q 13 2 (.reg 3)) := by decide
theorem test_decode_not : decode [0x33, 0x72, 0x68, 0x00, 0x00, 0x00, 0x00, 0x00] = .ok (.not .w 14 13) := by decide
theorem test_decode_lsl : decode [0x34, 0x19, 0x08, 0x00, 0x04, 0x00, 0x00, 0x00] = .ok (.lsl .b 3 1 (.imm 4)) := by decide
theorem test_decode_lsr : decode [0x35, 0x17, 0x08, 0x00, 0x20, 0x00, 0x00, 0x00] = .ok (.lsr .q 2 1 (.imm 32)) := by decide
theorem test_decode_asr : decode [0x36, 0xFB, 0xF8, 0xF8, 0xFF, 0xFF, 0xFF, 0xFF] = .ok (.asr .w 31 31 (.imm 0xFFFFFFFF)) := by decide
theorem test_decode_bra : decode [0x40, 0x06, 0x00, 0x00, 0x10, 0x00, 0x00, 0x00] = .ok (.bra 16) := by decide
theorem test_decode_beq : decode [0x41, 0x06, 0x08, 0x10, 0x18, 0x00, 0x00, 0x00] = .ok (.beq 1 2 24) := by decide
theorem test_decode_bne : decode [0x42, 0x06, 0x08, 0x00, 0xF0, 0xFF, 0xFF, 0xFF] = .ok (.bne 1 0 0xFFFFFFF0) := by decide
theorem test_decode_blt : decode [0x43, 0x06, 0x20, 0x28, 0x10, 0x00, 0x00, 0x00] = .ok (.blt 4 5 16) := by decide
theorem test_decode_bge : decode [0x44, 0x06, 0x28, 0x00, 0x00, 0x10, 0x00, 0x00] = .ok (.bge 5 0 0x1000) := by decide
theorem test_decode_bgt : decode [0x45, 0x06, 0x10, 0x00, 0xF0, 0xFF, 0xFF, 0xFF] = .ok (.bgt 2 0 0xFFFFFFF0) := by decide
theorem test_decode_ble : decode [0x46, 0x06, 0x28, 0x00, 0x00, 0x10, 0x00, 0x00] = .ok (.ble 5 0 0x1000) := by decide
theorem test_decode_bhi : decode [0x47, 0x06, 0x20, 0x28, 0x10, 0x00, 0x00, 0x00] = .ok (.bhi 4 5 16) := by decide
theorem test_decode_bls : decode [0x48, 0x06, 0x00, 0xF8, 0x00, 0x10, 0x00, 0x00] = .ok (.bls 0 31 0x1000) := by decide
theorem test_decode_jsr : decode [0x50, 0x06, 0x00, 0x00, 0x20, 0x00, 0x00, 0x00] = .ok (.jsr 32) := by decide
theorem test_decode_rts : decode [0x51, 0x06, 0x00, 0x00, 0x00, 0x00, 0x00, 0x00] = .ok .rts := by decide
theorem test_decode_push : decode [0x52, 0x06, 0x78, 0x00, 0x00, 0x00, 0x00, 0x00] = .ok (.push 15) := by decide
theorem test_decode_pop : decode [0x53, 0x16, 0x00, 0x00, 0x00, 0x00, 0x00, 0x00] = .ok (.pop 2) := by decide
theorem test_decode_nop : decode [0xE0, 0x06, 0x00, 0x00, 0x00, 0x00, 0x00, 0x00] = .ok .nop := by decide
theorem test_decode_halt : decode [0xE1, 0x06, 0x00, 0x00, 0x00, 0x00, 0x00, 0x00] = .ok .halt := by decide
theorem test_decode_sei : decode [0xE2, 0x06, 0x00, 0x00, 0x00, 0x00, 0x00, 0x00] = .ok .sei := by decide
theorem test_decode_cli : decode [0xE3, 0x06, 0x00, 0x00, 0x00, 0x00, 0x00, 0x00] = .ok .cli := by decide
theorem test_decode_rti : decode [0xE4, 0x06, 0x00, 0x00, 0x00, 0x00, 0x00, 0x00] = .ok .rti := by decide
theorem test_decode_wait : decode [0xE5, 0x07, 0x00, 0x00, 0xE8, 0x03, 0x00, 0x00] = .ok (.wait 1000) := by decide

/-- T1.8: reserved bits all ones and Rt ignored. -/
theorem test_decode_ignores : decode [0x10, 0xFF, 0xFF, 0xFF, 0x00, 0x00, 0x00, 0x80] = .ok (.load .q 31 31 0x80000000) := by
  decide

/-- The all-zero word is an invalid opcode (R112). -/
theorem test_decode_zero : decode [0, 0, 0, 0, 0, 0, 0, 0] = .invalidOpcode 0 := by decide

theorem test_decode_short : decode [0x20, 0x1E] = .tooFewBytes 2 := by decide

theorem test_decodeTableWord : decodeTableWord 64 0x0000000010081E20 = some (.add .q 3 1 (.reg 2)) := by decide

/-- The canonical bytes: X = 1 for a displacement that is not zero, Size = 3 without a suffix (R115). -/
theorem test_encode_canonical :
    encode (.store .b 7 10 4) = [0x11, 0x39, 0x50, 0x00, 0x04, 0x00, 0x00, 0x00] ∧
      encode (.store .q 2 3 0) = [0x11, 0x16, 0x18, 0x00, 0x00, 0x00, 0x00, 0x00] ∧
      encode (.wait 1000) = [0xE5, 0x07, 0x00, 0x00, 0xE8, 0x03, 0x00, 0x00] := by decide

/-! ## One step of each instruction -/

/-- The state a step ends in, if it ends in one. -/
def nextOf (r : Result) : Option State :=
  match r with
  | .next t => some t
  | .fault _ => none
  | .refused _ => none

/-- The fault a step ends in, if it ends in one. -/
def faultOf (r : Result) : Option Fault :=
  match r with
  | .next _ => none
  | .fault f => some f
  | .refused _ => none

/-- Reset, with some registers set. -/
def start (regs : List (RegId × Word)) : State :=
  regs.foldl (fun s p => writeReg s p.1 p.2) State.reset

/-- One step of the machine on an instruction word placed where it fetches. -/
def run (s : State) (w : Nat) : Option State :=
  nextOf (step (s.withFetchWord 64 w))

theorem test_move_T2_2 :
    (run (start [(1, 0xFFFFFFFFFFFFFFFF), (2, 0x1122334455667788)]) 0x0000000000100C01).map
      (fun t => (readReg t 1, t.pc)) = some (0x55667788, 0x1008) := by decide

theorem test_move_T2_8 :
    (run State.reset 0x000001FF00000901).map
      (fun t => (readReg t 1, t.pc)) = some (0xFF, 0x1008) := by decide

theorem test_movt_T2_14 :
    (run (start [(5, 0x1122334455667788)]) 0x0000000000002F02).map
      (fun t => (readReg t 5, t.pc)) = some (0x55667788, 0x1008) := by decide

theorem test_movt_T2_15 :
    (run (start [(5, 0x0)]) 0xFFFFFFFF00002F02).map
      (fun t => (readReg t 5, t.pc)) = some (0xFFFFFFFF00000000, 0x1008) := by decide

theorem test_moveq_T2_19 :
    (run State.reset 0x8000000000002F03).map
      (fun t => (readReg t 5, t.pc)) = some (0xFFFFFFFF80000000, 0x1008) := by decide

theorem test_moveq_T2_18 :
    (run State.reset 0x7FFFFFFF00002F03).map
      (fun t => (readReg t 5, t.pc)) = some (0x7FFFFFFF, 0x1008) := by decide

theorem test_lea_T2_24 :
    (run (start [(2, 0xFFFFFFFF)]) 0x0000000100102F04).map
      (fun t => (readReg t 5, t.pc)) = some (0x0000000100000000, 0x1008) := by decide

theorem test_lea_T2_23 :
    (run (start [(2, 0x2000)]) 0xFFFFFFF000102F04).map
      (fun t => (readReg t 5, t.pc)) = some (0x1FF0, 0x1008) := by decide

theorem test_load_T3_6 :
    (run (hostLoad (start [(2, 0x2000)]) 0x2000 [0xF1, 0xF2, 0xF3, 0xF4, 0xF5, 0xF6, 0xF7, 0xF8]) 0x0000000000100A10).map
      (fun t => (readReg t 1, t.pc)) = some (0xF2F1, 0x1008) := by decide

theorem test_load_T3_13 :
    (run (hostLoad (start [(2, 0x0000000100001FFF)]) 0x2000 [0x88, 0x77, 0x66, 0x55, 0x44, 0x33, 0x22, 0x11]) 0x0000000100100910).map
      (fun t => (readReg t 1, t.pc)) = some (0x88, 0x1008) := by decide

theorem test_store_T3_22 :
    (run (start [(1, 0x1122334455667788), (2, 0x2004)]) 0xFFFFFFFC00100D11).map
      (fun t => (readBytes t 0x2000 4, t.pc)) = some ([0x88, 0x77, 0x66, 0x55], 0x1008) := by decide

theorem test_store_T3_25 :
    (run (start [(2, 0x2000)]) 0x0000000000101611).map
      (fun t => (readBytes t 0x2000 8, t.pc)) = some ([0x00, 0x20, 0x00, 0x00, 0x00, 0x00, 0x00, 0x00], 0x1008) := by decide

theorem test_add_T4_7 :
    (run (start [(1, 0x1)]) 0xFFFFFFFF00081F20).map
      (fun t => (readReg t 3, t.pc)) = some (0x0000000100000000, 0x1008) := by decide

theorem test_add_T4_9 :
    (run (start [(1, 0x1234), (2, 0x5678)]) 0x0000000010081820).map
      (fun t => (readReg t 3, t.pc)) = some (0xAC, 0x1008) := by decide

theorem test_sub_T4_16 :
    (run (start [(1, 0x100)]) 0x0000000100081921).map
      (fun t => (readReg t 3, t.pc)) = some (0xFF, 0x1008) := by decide

theorem test_sub_T4_18 :
    (run (start [(1, 0x0)]) 0xFFFFFFFF00081F21).map
      (fun t => (readReg t 3, t.pc)) = some (0xFFFFFFFF00000001, 0x1008) := by decide

theorem test_mulu_T4_21 :
    (run (start [(1, 0xFFFFFFFFFFFFFFFF), (2, 0xFFFFFFFFFFFFFFFF)]) 0x0000000010081E22).map
      (fun t => (readReg t 3, t.pc)) = some (0x1, 0x1008) := by decide

theorem test_mulu_T4_23 :
    (run (start [(1, 0x1FF)]) 0x0000010100081B22).map
      (fun t => (readReg t 3, t.pc)) = some (0xFF, 0x1008) := by decide

theorem test_muls_T4_24 :
    (run (start [(1, 0xFFFFFFFFFFFFFFFD), (2, 0x4)]) 0x0000000010081E23).map
      (fun t => (readReg t 3, t.pc)) = some (0xFFFFFFFFFFFFFFF4, 0x1008) := by decide

theorem test_muls_T4_28 :
    (run (start [(1, 0x8000000000000000), (2, 0xFFFFFFFFFFFFFFFF)]) 0x0000000010081E23).map
      (fun t => (readReg t 3, t.pc)) = some (0x8000000000000000, 0x1008) := by decide

theorem test_divu_T4_35 :
    (run (start [(1, 0x10), (2, 0x100)]) 0x0000000010081824).map
      (fun t => (readReg t 3, t.pc)) = some (0x0, 0x1008) := by decide

theorem test_divu_T4_31 :
    (run (start [(1, 0x64), (2, 0x0), (3, 0x1122334455667788)]) 0x0000000010081E24).map
      (fun t => (readReg t 3, t.pc)) = some (0x0, 0x1008) := by decide

theorem test_divs_T4_37 :
    (run (start [(1, 0xFFFFFFFFFFFFFFF9), (2, 0x2)]) 0x0000000010081E25).map
      (fun t => (readReg t 3, t.pc)) = some (0xFFFFFFFFFFFFFFFD, 0x1008) := by decide

theorem test_divs_T4_44 :
    (run (start [(1, 0xFFFFFFF9), (2, 0x2)]) 0x0000000010081C25).map
      (fun t => (readReg t 3, t.pc)) = some (0x7FFFFFFC, 0x1008) := by decide

theorem test_mod_T4_46 :
    (run (start [(1, 0xFFFFFFFFFFFFFFF9), (2, 0x2)]) 0x0000000010081E26).map
      (fun t => (readReg t 3, t.pc)) = some (0x1, 0x1008) := by decide

theorem test_mod_T4_47 :
    (run (start [(1, 0x64), (2, 0x0), (3, 0x1122334455667788)]) 0x0000000010081E26).map
      (fun t => (readReg t 3, t.pc)) = some (0x0, 0x1008) := by decide

theorem test_neg_T4_54 :
    (run (start [(2, 0x0000000100000001)]) 0x0000000000101C27).map
      (fun t => (readReg t 3, t.pc)) = some (0xFFFFFFFF, 0x1008) := by decide

theorem test_neg_T4_52 :
    (run (start [(2, 0x8000000000000000)]) 0x0000000000101E27).map
      (fun t => (readReg t 3, t.pc)) = some (0x8000000000000000, 0x1008) := by decide

theorem test_and_T5_2 :
    (run (start [(1, 0xDEADBEEFCAFEBABE)]) 0xFFFFFFFF00081F30).map
      (fun t => (readReg t 3, t.pc)) = some (0xCAFEBABE, 0x1008) := by decide

theorem test_and_T5_3 :
    (run (start [(1, 0x1234)]) 0x000000F000081930).map
      (fun t => (readReg t 3, t.pc)) = some (0x30, 0x1008) := by decide

theorem test_or_T5_4 :
    (run (start [(1, 0xFF00FF00FF00FF00), (2, 0x0FF00FF00FF00FF0)]) 0x0000000010081E31).map
      (fun t => (readReg t 3, t.pc)) = some (0xFFF0FFF0FFF0FFF0, 0x1008) := by decide

theorem test_or_T5_5 :
    (run (start [(1, 0x12340001)]) 0x0000800000081B31).map
      (fun t => (readReg t 3, t.pc)) = some (0x8001, 0x1008) := by decide

theorem test_eor_T5_6 :
    (run (start [(1, 0xFF00FF00FF00FF00), (2, 0x0FF00FF00FF00FF0)]) 0x0000000010081E32).map
      (fun t => (readReg t 3, t.pc)) = some (0xF0F0F0F0F0F0F0F0, 0x1008) := by decide

theorem test_eor_T5_8 :
    (run (start [(1, 0x12345678)]) 0xFFFFFFFF00081D32).map
      (fun t => (readReg t 3, t.pc)) = some (0xEDCBA987, 0x1008) := by decide

theorem test_not_T5_10 :
    (run (start [(2, 0xF)]) 0x0000000000101833).map
      (fun t => (readReg t 3, t.pc)) = some (0xF0, 0x1008) := by decide

theorem test_not_T5_12 :
    (run (start [(2, 0x0000123400000000)]) 0x0000000000101C33).map
      (fun t => (readReg t 3, t.pc)) = some (0xFFFFFFFF, 0x1008) := by decide

theorem test_lsl_T5_15 :
    (run (start [(1, 0x5)]) 0x0000004000081F34).map
      (fun t => (readReg t 3, t.pc)) = some (0x5, 0x1008) := by decide

theorem test_lsl_T5_17 :
    (run (start [(1, 0x1F)]) 0x0000000400081934).map
      (fun t => (readReg t 3, t.pc)) = some (0xF0, 0x1008) := by decide

theorem test_lsr_T5_22 :
    (run (start [(1, 0xDE00)]) 0x0000000800081935).map
      (fun t => (readReg t 3, t.pc)) = some (0xDE, 0x1008) := by decide

theorem test_lsr_T5_24 :
    (run (start [(1, 0x100), (2, 0x48)]) 0x0000000010081E35).map
      (fun t => (readReg t 3, t.pc)) = some (0x1, 0x1008) := by decide

theorem test_asr_T5_29 :
    (run (start [(1, 0xFFFFFFFFFFFFFF40)]) 0x0000000100081936).map
      (fun t => (readReg t 3, t.pc)) = some (0x20, 0x1008) := by decide

theorem test_asr_T5_33 :
    (run (start [(1, 0x80)]) 0x0000003F00081936).map
      (fun t => (readReg t 3, t.pc)) = some (0xFF, 0x1008) := by decide

theorem test_bra_T6_18 :
    (run ({ State.reset with pc := 0x1010 }) 0xFFFFFFF000000640).map
      (fun t => (t.pc)) = some (0x1000) := by decide

theorem test_bra_T6_35 :
    (run State.reset 0x8000000000000640).map
      (fun t => (t.pc)) = some (0xFFFFFFFF80001000) := by decide

theorem test_beq_T6_21 :
    (run (start [(1, 0x5), (2, 0x5)]) 0x0000001810080641).map
      (fun t => (t.pc)) = some (0x1018) := by decide

theorem test_beq_T6_22 :
    (run (start [(1, 0x5), (2, 0x6)]) 0x0000001810080641).map
      (fun t => (t.pc)) = some (0x1008) := by decide

theorem test_bne_T6_23 :
    (run ({ start [(1, 0x3)] with pc := 0x1010 }) 0xFFFFFFF800080642).map
      (fun t => (t.pc)) = some (0x1008) := by decide

theorem test_bne_T6_24 :
    (run ({ start [(1, 0x0)] with pc := 0x1010 }) 0xFFFFFFF800080642).map
      (fun t => (t.pc)) = some (0x1018) := by decide

theorem test_blt_T6_25 :
    (run (start [(5, 0xFFFFFFFFFFFFFFFF)]) 0x0000100000280643).map
      (fun t => (t.pc)) = some (0x2000) := by decide

theorem test_blt_T6_30 :
    (run (start [(1, 0x1), (2, 0xFFFFFFFFFFFFFFFF)]) 0x0000100010080643).map
      (fun t => (t.pc)) = some (0x1008) := by decide

theorem test_bge_T6_26 :
    (run (start [(5, 0xFFFFFFFFFFFFFFFF)]) 0x0000100000280644).map
      (fun t => (t.pc)) = some (0x1008) := by decide

theorem test_bgt_T6_27 :
    (run (start [(5, 0x0)]) 0x0000100000280645).map
      (fun t => (t.pc)) = some (0x1008) := by decide

theorem test_ble_T6_28 :
    (run (start [(5, 0x0)]) 0x0000100000280646).map
      (fun t => (t.pc)) = some (0x2000) := by decide

theorem test_bhi_T6_29 :
    (run (start [(1, 0x1), (2, 0xFFFFFFFFFFFFFFFF)]) 0x0000100008100647).map
      (fun t => (t.pc)) = some (0x2000) := by decide

theorem test_bls_T6_31 :
    (run State.reset 0x0000100000000648).map
      (fun t => (t.pc)) = some (0x2000) := by decide

theorem test_jsr_T7_2 :
    (run ({ start [(31, 0x9F000)] with pc := 0x1040 }) 0xFFFFFFC000000650).map
      (fun t => (readReg t 31, readBytes t 0x9EFF8 8, t.pc)) = some (0x9EFF8, [0x48, 0x10, 0x00, 0x00, 0x00, 0x00, 0x00, 0x00], 0x1000) := by decide

theorem test_rts_T7_5 :
    (run (hostLoad ({ start [(31, 0x9EFF8)] with pc := 0x1020 }) 0x9EFF8 [0x14, 0x10, 0x00, 0x00, 0x01, 0x00, 0x00, 0x00]) 0x0000000000000651).map
      (fun t => (readReg t 31, t.pc)) = some (0x9F000, 0x0000000100001014) := by decide

theorem test_rts_T8_10 :
    (run (hostLoad ({ start [(31, 0x9EFF8)] with pc := 0x1100, interruptEnabled := true, inInterrupt := true }) 0x9EFF8 [0x10, 0x10, 0x00, 0x00, 0x00, 0x00, 0x00, 0x00]) 0x0000000000000651).map
      (fun t => (readReg t 31, t.pc, t.inInterrupt)) = some (0x9F000, 0x1010, true) := by decide

theorem test_push_T7_8 :
    (run (start [(31, 0x9F000)]) 0x0000000000F80652).map
      (fun t => (readReg t 31, readBytes t 0x9EFF8 8, t.pc)) = some (0x9EFF8, [0xF8, 0xEF, 0x09, 0x00, 0x00, 0x00, 0x00, 0x00], 0x1008) := by decide

theorem test_push_T7_12 :
    (run (start [(1, 0x1122334455667788), (31, 0x000000010009F000)]) 0x0000000000080652).map
      (fun t => (readReg t 31, readBytes t 0x9EFF8 8, t.pc)) = some (0x000000010009EFF8, [0x88, 0x77, 0x66, 0x55, 0x44, 0x33, 0x22, 0x11], 0x1008) := by decide

theorem test_pop_T7_11 :
    (run (hostLoad (start [(31, 0x9EFF8)]) 0x9EFF8 [0x00, 0x50, 0x00, 0x00, 0x00, 0x00, 0x00, 0x00]) 0x000000000000FE53).map
      (fun t => (readReg t 31, t.pc)) = some (0x5008, 0x1008) := by decide

theorem test_pop_T7_10 :
    (run (hostLoad (start [(31, 0x9EFF8)]) 0x9EFF8 [0x88, 0x77, 0x66, 0x55, 0x44, 0x33, 0x22, 0x11]) 0x0000000000000653).map
      (fun t => (readReg t 0, readReg t 31, t.pc)) = some (0x0, 0x9F000, 0x1008) := by decide

theorem test_nop_T1_12 :
    (run (start [(1, 0x7)]) 0xFFFFFFFFFFFFFFE0).map
      (fun t => (t.pc)) = some (0x1008) := by decide

theorem test_nop_T6_37 :
    (run ({ State.reset with pc := 0x0000000100001000 }) 0x00000000000006E0).map
      (fun t => (t.pc)) = some (0x0000000100001008) := by decide

theorem test_halt_T8_3 :
    (run ({ start [(1, 0x1122334455667788)] with pc := 0x1238 }) 0x00000000000006E1).map
      (fun t => (t.pc, t.running)) = some (0x1238, false) := by decide

theorem test_sei_T8_11 :
    (run ({ State.reset with inInterrupt := true }) 0x00000000000006E2).map
      (fun t => (t.pc, t.interruptEnabled, t.inInterrupt)) = some (0x1008, true, true) := by decide

theorem test_cli_T8_6 :
    (run ({ State.reset with interruptEnabled := true }) 0x00000000000006E3).map
      (fun t => (t.pc, t.interruptEnabled)) = some (0x1008, false) := by decide

theorem test_rti_T8_8 :
    (run (hostLoad ({ start [(31, 0x9EFF8)] with pc := 0x1100, interruptEnabled := true, inInterrupt := true }) 0x9EFF8 [0x10, 0x10, 0x00, 0x00, 0x00, 0x00, 0x00, 0x00]) 0x00000000000006E4).map
      (fun t => (readReg t 31, t.pc, t.inInterrupt)) = some (0x9F000, 0x1010, false) := by decide

theorem test_rti_T8_9 :
    (run (hostLoad ({ start [(31, 0x9EFF8)] with pc := 0x1100 }) 0x9EFF8 [0x10, 0x10, 0x00, 0x00, 0x00, 0x00, 0x00, 0x00]) 0x00000000000006E4).map
      (fun t => (readReg t 31, t.pc)) = some (0x9F000, 0x1010) := by decide

theorem test_wait_T8_14 :
    (run State.reset 0xFFFFFFFF000007E5).map
      (fun t => (t.pc)) = some (0x1008) := by decide
/-- T4.41: the default of `divs_overflow` is the quotient of -2^63 by -1 (R166, R170). -/
theorem test_divs_T4_41 :
    (run (start [(1, 0x8000000000000000), (2, 0xFFFFFFFFFFFFFFFF)]) 0x0000000010081E25).map
      (fun t => (readReg t 3, t.pc)) = some (0x8000000000000000, 0x1008) := by decide

/-- R6, R170: with another value of the parameter, that value is the quotient. -/
theorem test_divs_overflow_is_a_parameter :
    (nextOf (exec (.divs .q 3 1 (.reg 2)) { start [(1, 0x8000000000000000), (2, 0xFFFFFFFFFFFFFFFF)] with
      parameters := { defaultParameters with divsOverflow := 7 } })).map (fun t => readReg t 3) = some 7 := by decide

/-- R112, R281. -/
theorem test_invalid_opcode_stops :
    faultOf (step (State.reset.withFetchWord 64 0xFF)) = some (.invalidOpcode 0xFF) := by decide

/-- R330, D25. -/
theorem test_halted_stops : faultOf (step { State.reset with running := false }) = some .halted := by decide

/-- R71: the byte behind the last one of memory. -/
theorem test_load_beyond_memory_stops :
    faultOf (exec (.load .q 1 0 0x1FFFFF9) State.reset) = some (.accessBeyondMemory .read 0x1FFFFF9 8) := by decide

/-- R74: 0x1FFFFF9 + 8 passes the top. -/
theorem test_fetch_beyond_top_stops :
    faultOf (step { State.reset with pc := 0x1FFFFF9 }) = some (.fetchBeyondTop 0x1FFFFF9) := by decide

/-- R70: a store outside RAM changes no RAM byte and is delivered to the platform. -/
theorem test_store_to_device :
    (nextOf (exec (.store .w 1 0 0xF0700) (start [(1, 0x1234)]))).map (fun t => (t.mem, t.busEvents)) =
      some ([], [.write 0xF0700 2 0x1234]) := by decide

/-- R64: the map (R63) decides the class. -/
theorem test_region_classes :
    regionClass defaultParameters 0x9FFFF = .ram ∧ regionClass defaultParameters 0xA0000 = .device .vgaVram ∧ regionClass defaultParameters 0xB0000 = .undescribed ∧
      regionClass defaultParameters 0xF0B3F = .device .audioChip ∧ regionClass defaultParameters 0x4FFFFF = .device .videoRam ∧
      regionClass defaultParameters 0x500000 = .undescribed := by decide

/-! ## The timer (K vectors) -/

/-- The start of the K vectors: PC 0x1010, vector 0x1100. -/
def timerState (cc : Nat) (cnt per : Word) (ie ii : Bool) : State :=
  { State.reset with
    pc := 0x1010, interruptVector := 0x1100, timerEnabled := true, timerState := Config.timerRunning,
    cycleCounter := cc, timerCount := cnt, timerPeriod := per, interruptEnabled := ie, inInterrupt := ii }

theorem test_timer_K4 :
    (nextOf (timerTick (timerState 44099 5 3 true false))).map (fun t => (t.cycleCounter, t.timerCount, t.pc)) =
      some (0, 4, 0x1010) := by decide

theorem test_timer_K6 :
    (nextOf (timerTick (timerState 44099 1 3 true false))).map
      (fun t => (t.timerCount, t.timerState, t.inInterrupt, readBytes t 0x9EFF8 2, t.pc)) =
      some (3, Config.timerExpired, true, [0x10, 0x10], 0x1100) := by decide

theorem test_timer_K7 :
    (nextOf (timerTick (timerState 44099 1 3 false false))).map (fun t => (t.timerCount, t.timerState, t.pc)) =
      some (3, Config.timerExpired, 0x1010) := by decide

theorem test_timer_K10 :
    (nextOf (timerTick { timerState 44099 0 3 true false with timerState := 0 })).map
      (fun t => (t.timerCount, t.timerState, t.inInterrupt)) = some (3, Config.timerRunning, false) := by decide

/-- An instruction is placed at the vector when the tick enters the interrupt: `step` runs exactly it. -/
theorem test_withFetchWord_at_the_vector :
    (run (timerState 44099 1 0 true false) 0x00000000000006E2).map (fun t => (t.pc, t.interruptEnabled)) =
      some (0x1108, true) := by decide

/-- R6: the parameters are arguments. With RAM up to 0x1FFFFFF a store into it is no event of the platform; with a
memory of 64 KB the stack at reset lies beyond it. -/
theorem test_parameters :
    (nextOf (exec (.store .w 1 0 0xF0700) (writeReg (State.resetOn { defaultParameters with ramRegions := [(0, 0x1FFFFFF)] }) 1 0x1234))).map
        (fun t => (t.mem, t.busEvents)) = some ([(0xF0700, 0x34), (0xF0701, 0x12)], []) ∧
      faultOf (exec (.push 1) (State.resetOn { defaultParameters with memSize := 0x10000, ramRegions := [(0, 0xFFFF)] })) =
        some (.accessBeyondMemory .write 0x9EFF8 8) := by decide

/-- The launch of R324: image, vector and timer in place, running. -/
theorem test_launch :
    (launch defaultParameters [(0x1000, [0xE0, 0x06])] 0x1100 timerOff).mem = [(0x1000, 0xE0), (0x1001, 0x06)] ∧
      (launch defaultParameters [(0x1000, [0xE0, 0x06])] 0x1100 timerOff).interruptVector = 0x1100 ∧
      (launch defaultParameters [(0x1000, [0xE0, 0x06])] 0x1100 timerOff).running = true := by decide

/-! ## The assembler -/

/-- The bytes an assembly gives, in the order of the source. -/
def bytesOf (a : Asm.Answer (List (Nat × List Byte))) : List (List Byte) :=
  match a with
  | .ok l => l.map Prod.snd
  | .error _ => []

/-- Why an assembly stops, if it does. -/
def errorOf (a : Asm.Answer (List (Nat × List Byte))) : Option Asm.AsmError :=
  match a with
  | .ok _ => none
  | .error e => some e

/-- E14, E7, E16 (R241, R242, R249). -/
theorem test_asm_pseudo :
    bytesOf (Asm.assembleText 9 " org 0\n li r3, #$DEADBEEF_CAFEBABE\n la r5, $A0000\n moveq r5, #-1".toList) =
      [[0x01, 0x1D, 0, 0, 0xBE, 0xBA, 0xFE, 0xCA, 0x02, 0x1F, 0, 0, 0xEF, 0xBE, 0xAD, 0xDE],
        [0x04, 0x2F, 0, 0, 0, 0, 0x0A, 0], [0x03, 0x2F, 0, 0, 0xFF, 0xFF, 0xFF, 0xFF]] := by decide +kernel

/-- The loop of P3: a local label, a pseudo-branch backward, a call forward (R253, R243, R251). -/
theorem test_asm_labels :
    bytesOf (Asm.assembleText 9
      " org $1000\n jsr fact\nfact:\n.loop:\n MULU.Q R1, r1, r2 ; it's\n bgtz r2, .loop".toList) =
      [[0x50, 0x06, 0, 0, 0x08, 0, 0, 0], [0x22, 0x0E, 0x08, 0x10, 0, 0, 0, 0],
        [0x45, 0x06, 0x10, 0, 0xF8, 0xFF, 0xFF, 0xFF]] := by decide +kernel

/-- E20: the `multi` macro with one argument (R254, R256). -/
theorem test_asm_macro :
    bytesOf (Asm.assembleText 20
      "multi macro\n if narg == 2\n nop\n else\n move.q \\1, r0\n endif\n endm\n org 0\n multi r5".toList) =
      [[0x01, 0x2E, 0, 0, 0, 0, 0, 0]] := by decide +kernel

/-- E20 and R257, R261, R262: data, escapes, a semicolon in a string, a repeat block. -/
theorem test_asm_data :
    bytesOf (Asm.assembleText 9 " org 2\n rept 2\n dc.w $1234\n endr\n align 8\n dc.b \"o; \\n\", 'A'".toList) =
      [[0x34, 0x12], [0x34, 0x12], [0, 0], [0x6F, 0x3B, 0x20, 0x0A, 0x41]] := by decide +kernel

/-- Precedence (R258): a shift binds looser than `+` and tighter than `&`; a comparison gives 1. -/
theorem test_asm_precedence :
    (Asm.evalText ⟨fun _ => none, true⟩ "1 + 2 << 3 & 255 == 24".toList).toOption = some 1#64 ∧
      (Asm.evalText ⟨fun _ => none, true⟩ "-(2 + 3) * 2 | 1".toList).toOption = some (0#64 - 9#64) := by
  decide +kernel

/-- R241: "the address expression must not contain parentheses". R263: a negative ALU immediate is not stated. -/
theorem test_asm_stops :
    errorOf (Asm.assembleText 5 " org 0\n add.q r1, r1, #-1".toList) = some (.outOfRange (-1)) ∧
      (errorOf (Asm.assembleText 5 " org 0\n la r1, 8+(1*4)".toList)).isSome = true := by decide +kernel

/-! ## A state and operands that meet the hypotheses of each statement that has some -/

theorem witness_UnusedBitsHaveNoEffect :
    0x000000001F0F1E20#64 ≠ 0xDEADBEEF18081E20#64 ∧
      0x000000001F0F1E20#64 &&& usedBits 0x000000001F0F1E20#64 =
        0xDEADBEEF18081E20#64 &&& usedBits 0x000000001F0F1E20#64 := by decide

/-- Every clause, and no two clauses for one opcode. -/
theorem witness_OpcodeMapSelectsInstruction :
    (∀ op : Byte, ∃ f : Fields, f.opcode = op) ∧
      ([0x01, 0x02, 0x03, 0x04, 0x10, 0x11, 0x20, 0x21, 0x22, 0x23, 0x24, 0x25, 0x26, 0x27, 0x30, 0x31, 0x32, 0x33,
        0x34, 0x35, 0x36, 0x40, 0x41, 0x42, 0x43, 0x44, 0x45, 0x46, 0x47, 0x48, 0x50, 0x51, 0x52, 0x53, 0xE0, 0xE1,
        0xE2, 0xE3, 0xE4, 0xE5] : List Byte).Nodup ∧
      opcodeAssigned 0x05 = false :=
  ⟨fun op => ⟨⟨op, 0, 0, 0, 0, 0, 0⟩, rfl⟩, by decide⟩

theorem witness_ResultsIntoR0AreDropped :
    (effectiveAddr State.reset 0#5 0x1FFFFF8#32).toNat + sizeBytes .q ≤ accessLimit defaultParameters ∧
      (stackAddr (start [(31, 0x1FFFFF8)])).toNat + 8 ≤ accessLimit defaultParameters := by decide

theorem witness_XBitSelectsTheOperand :
    (fieldsOf 0x0000000010081E20#64).xbit = 0#1 ∧ (fieldsOf 0x0000000000001F20#64).xbit = 1#1 := by decide

/-- The last 8 bytes of RAM, and every part of them. -/
theorem witness_NarrowReadsSeeTheWideWrite :
    (∃ t, memWrite State.reset 0x9FFF8#32 8 0x1122334455667788#64 = .next t) ∧
      touchesPlatform defaultParameters (0x9FFF8#32).toNat 8 = false ∧ 7 < 8 ∧ 3 < 4 ∧ 1 < 2 :=
  ⟨⟨_, rfl⟩, by decide, by decide, by decide, by decide⟩

theorem witness_StoreIsSeenByTheNextFetch :
    (∃ t, exec (.store .q 1 2 0#32) (start [(2, 0x1008)]) = .next t) ∧
      (effectiveAddr (start [(2, 0x1008)]) 2 0#32).toNat = ((start [(2, 0x1008)]).pc.toNat + 8) % 2 ^ 25 ∧
      ((start [(2, 0x1008)]).pc.toNat + 8) % 2 ^ 25 + 8 ≤ 2 ^ 25 ∧
      touchesPlatform defaultParameters (effectiveAddr (start [(2, 0x1008)]) 2 0#32).toNat 8 = false :=
  ⟨⟨_, rfl⟩, by decide, by decide, by decide⟩

/-- Reset with a NOP stored at an address, where the PC stands. -/
def nopAt (pc : Word) : State := { State.reset with pc := pc }.withFetchWord 64 0x6E0

/-- At reset's PC, and in the last 8 bytes of RAM. -/
theorem witness_StepRunsTheDecodedInstruction :
    ((nopAt 0x1000).running = true ∧ timerTick (nopAt 0x1000) = .next (nopAt 0x1000) ∧
      (nopAt 0x1000).pc.toNat % 2 ^ 25 + 8 ≤ 2 ^ 25 ∧
      decode (readBytes (nopAt 0x1000) ((nopAt 0x1000).pc.toNat % 2 ^ 25) 8) = .ok .nop) ∧
    ((nopAt 0x9FFF8).running = true ∧ timerTick (nopAt 0x9FFF8) = .next (nopAt 0x9FFF8) ∧
      (nopAt 0x9FFF8).pc.toNat % 2 ^ 25 + 8 ≤ 2 ^ 25 ∧
      decode (readBytes (nopAt 0x9FFF8) ((nopAt 0x9FFF8).pc.toNat % 2 ^ 25) 8) = .ok .nop) :=
  ⟨⟨rfl, rfl, by decide, by decide⟩, ⟨rfl, rfl, by decide, by decide⟩⟩

theorem witness_UnassignedOpcodeStops :
    (State.reset.withFetchWord 64 0).running = true ∧
      timerTick (State.reset.withFetchWord 64 0) = .next (State.reset.withFetchWord 64 0) ∧
      (State.reset.withFetchWord 64 0).pc.toNat % 2 ^ 25 + 8 ≤ 2 ^ 25 ∧
      opcodeAssigned (readByte (State.reset.withFetchWord 64 0)
        ((State.reset.withFetchWord 64 0).pc.toNat % 2 ^ 25)) = false :=
  ⟨rfl, rfl, by decide, by decide⟩

theorem witness_FetchPastTheTopStops :
    ({ State.reset with pc := 0x1FFFFF9 } : State).running = true ∧
      timerTick { State.reset with pc := 0x1FFFFF9 } = .next { State.reset with pc := 0x1FFFFF9 } ∧
      0x1FFFFF8 < ({ State.reset with pc := 0x1FFFFF9 } : State).pc.toNat % 2 ^ 25 :=
  ⟨rfl, rfl, by decide⟩

/-- The last admitted access of each size. -/
theorem witness_LoadReadsZeroExtended :
    (effectiveAddr State.reset 0#5 0x1FFFFFF#32).toNat + sizeBytes .b ≤ accessLimit defaultParameters ∧
      (effectiveAddr State.reset 0#5 0x1FFFFF8#32).toNat + sizeBytes .q ≤ accessLimit defaultParameters := by decide

theorem witness_StoreWritesTheLowBytes :
    (effectiveAddr State.reset 0#5 0x1FFFFFE#32).toNat + sizeBytes .w ≤ accessLimit defaultParameters ∧
      (effectiveAddr State.reset 0#5 0x1FFFFFC#32).toNat + sizeBytes .l ≤ accessLimit defaultParameters := by decide

/-- The first access that is not admitted, for each clause, and one that would pass 2^32. -/
theorem witness_UnadmittedAccessesStop :
    accessLimit defaultParameters < (effectiveAddr State.reset 0#5 0x2000000#32).toNat + sizeBytes .b ∧
      accessLimit defaultParameters < (stackAddr (decrementSp (start [(31, 0x2000001)]))).toNat + 8 ∧
      accessLimit defaultParameters < (stackAddr (start [(31, 0x1FFFFF9)])).toNat + 8 ∧
      accessLimit { defaultParameters with memSize := 2 ^ 40 } < (stackAddr (start [(31, 0xFFFFFFF9)])).toNat + 8 := by decide

/-- The three clauses of the quotient, the last one also beside the overflow. -/
theorem witness_SignedDivisionRoundsTowardZero :
    (op3Value State.reset (.imm 0#32)).toInt = 0 ∧
      ((readReg (start [(1, 0x8000000000000000), (2, 0xFFFFFFFFFFFFFFFF)]) 1).toInt = -2 ^ 63 ∧
        (op3Value (start [(1, 0x8000000000000000), (2, 0xFFFFFFFFFFFFFFFF)]) (.reg 2)).toInt = -1) ∧
      ((op3Value (start [(1, 0x8000000000000001), (2, 0xFFFFFFFFFFFFFFFF)]) (.reg 2)).toInt ≠ 0 ∧
        ¬ ((readReg (start [(1, 0x8000000000000001), (2, 0xFFFFFFFFFFFFFFFF)]) 1).toInt = -2 ^ 63 ∧
          (op3Value (start [(1, 0x8000000000000001), (2, 0xFFFFFFFFFFFFFFFF)]) (.reg 2)).toInt = -1)) := by decide

theorem witness_BranchPairsAreComplementary : branchTarget State.reset 0#32 ≠ State.reset.pc + 8#64 := by decide

/-- The highest admitted stack slot. -/
theorem witness_JsrPushesTheReturnAddress :
    (stackAddr (decrementSp (start [(31, 0x2000000)]))).toNat + 8 ≤ accessLimit defaultParameters := by decide

theorem witness_PushStoresAtTheNewSp :
    (stackAddr (decrementSp (start [(31, 0x2000000)]))).toNat + 8 ≤ accessLimit defaultParameters := by decide

theorem witness_RtsPopsThePc : (stackAddr (start [(31, 0x1FFFFF8)])).toNat + 8 ≤ accessLimit defaultParameters := by decide

theorem witness_PopLoadsFromSp : (stackAddr (start [(31, 0x1FFFFF8)])).toNat + 8 ≤ accessLimit defaultParameters := by decide

theorem witness_RtiPopsThePcAndEndsService : (stackAddr (start [(31, 0x1FFFFF8)])).toNat + 8 ≤ accessLimit defaultParameters := by decide

theorem witness_RtsReturnsBehindTheJsr :
    (∃ t, exec (.jsr 32#32) State.reset = .next t) ∧
      touchesPlatform defaultParameters (stackAddr (decrementSp State.reset)).toNat 8 = false :=
  ⟨⟨_, rfl⟩, by decide⟩

theorem witness_PopReturnsThePushedValue :
    (∃ t, exec (.push 2) (start [(2, 7)]) = .next t) ∧
      touchesPlatform defaultParameters (stackAddr (decrementSp (start [(2, 7)]))).toNat 8 = false ∧ (2 : RegId) ≠ 31#5 ∧
      (3 : RegId) ≠ 31#5 :=
  ⟨⟨_, rfl⟩, by decide, by decide, by decide⟩

/-- A run of one step. -/
theorem witness_TimerOffMeansNoInterrupt :
    (State.reset.withFetchWord 64 0x6E0).timerEnabled = false ∧
      ∃ t, Reaches (State.reset.withFetchWord 64 0x6E0) t ∧ t.pc = 0x1008 :=
  ⟨rfl, _, .step rfl (.refl _), by decide⟩

/-- The longest run of ticks that only counts. -/
theorem witness_TicksBelowTheRateOnlyCount :
    (timerState 0 5 3 true false).timerEnabled = true ∧ (timerState 0 5 3 true false).cycleCounter + 44099 < 44100 := by
  decide

theorem witness_TickAtTheRateWithoutExpiry :
    ∀ s ∈ [timerState 44099 2 3 true false, timerState 44099 0 3 true false, timerState 44099 0 0 true false],
      s.timerEnabled = true ∧ 44100 ≤ s.cycleCounter + 1 ∧
        (1 < s.timerCount.toNat ∨ s.timerCount = 0#64 ∧ s.timerPeriod ≠ 0#64 ∨
          s.timerCount = 0#64 ∧ s.timerPeriod = 0#64) := by decide

/-- Interrupts disabled, and one in service. -/
theorem witness_BlockedExpiryIsDropped :
    ∀ s ∈ [timerState 44099 1 3 false false, timerState 44099 1 3 true true],
      s.timerEnabled = true ∧ 44100 ≤ s.cycleCounter + 1 ∧ s.timerCount = 1#64 ∧
        (s.interruptEnabled = false ∨ s.inInterrupt = true) := by decide

/-- On the highest admitted stack slot. -/
theorem witness_ExpiryEntersTheInterrupt :
    (writeReg (timerState 44099 1 3 true false) 31 0x2000000).timerEnabled = true ∧
      44100 ≤ (writeReg (timerState 44099 1 3 true false) 31 0x2000000).cycleCounter + 1 ∧
      (writeReg (timerState 44099 1 3 true false) 31 0x2000000).timerCount = 1#64 ∧
      (writeReg (timerState 44099 1 3 true false) 31 0x2000000).interruptEnabled = true ∧
      (writeReg (timerState 44099 1 3 true false) 31 0x2000000).inInterrupt = false ∧
      (stackAddr (decrementSp (writeReg (timerState 44099 1 3 true false) 31 0x2000000))).toNat + 8 ≤ accessLimit defaultParameters := by
  decide

theorem witness_InterruptsDoNotNest : (timerState 44099 1 3 true true).inInterrupt = true := by decide

theorem witness_RtiResumesTheInterruptedProgram :
    (∃ t, interruptEntry (timerState 0 1 3 true false) = .next t) ∧
      touchesPlatform defaultParameters (stackAddr (decrementSp (timerState 0 1 3 true false))).toNat 8 = false :=
  ⟨⟨_, rfl⟩, by decide⟩

theorem witness_TimerExpiresAfterItsCount :
    (timerState 0 1 3 false false).timerEnabled = true ∧ (timerState 0 1 3 false false).cycleCounter = 0 ∧
      (timerState 0 1 3 false false).timerCount ≠ 0#64 ∧
      ((timerState 0 1 3 false false).interruptEnabled = false ∨
        (timerState 0 1 3 false false).inInterrupt = true) := by decide

theorem witness_StepKeepsTheInvariant :
    (State.reset.withFetchWord 64 0x0000000000780652).Wf ∧
      (nextOf (step (State.reset.withFetchWord 64 0x0000000000780652))).isSome = true := by decide

/-- Each of the four instructions with a control effect, and one without. -/
theorem witness_ControlStateHasItsOwnInstructions :
    ∀ i ∈ [Instr.sei, .cli, .rti, .halt, .nop], ∃ t, exec i State.reset = .next t := by
  intro i hi
  simp only [List.mem_cons, List.not_mem_nil, or_false] at hi
  obtain rfl | rfl | rfl | rfl | rfl := hi <;> exact ⟨_, rfl⟩

theorem witness_OnlyStorePushAndJsrWriteMemory :
    (∃ t, exec (.pop 2) State.reset = .next t) ∧ (∀ sz rd rs disp, Instr.pop 2 ≠ .store sz rd rs disp) ∧
      (∀ rs, Instr.pop 2 ≠ .push rs) ∧ (∀ off, Instr.pop 2 ≠ .jsr off) :=
  ⟨⟨_, rfl⟩, by simp, by simp, by simp⟩

theorem witness_InstructionsStopOnlyOnUnadmittedAccesses :
    ∃ f, exec (.load .b 1 0 0x2000000#32) State.reset = .fault f := ⟨_, rfl⟩

end Sys2Proof.Tests
end

section
/-! Sizes, operands and the instruction cycle: what decoding and fetching answer, which instruction a step runs, and
the invariant through every instruction and every step (00_scope.md R6, R10, R14, R16). -/

namespace Sys2Proof.Machine

/-! ## Sizes and operands -/

/-- The mask of a size is the remainder by 2 to its width (R10). -/
theorem toNat_maskToSize (sz : Size) (v : Word) :
    (maskToSize sz v).toNat = v.toNat % 2 ^ (8 * sizeBytes sz) := by
  refine Nat.eq_of_testBit_eq fun i => ?_
  rw [BitVec.testBit_toNat, getLsbD_maskToSize, Nat.testBit_mod_two_pow, BitVec.testBit_toNat]

/-- X = 0 selects the registers, as third operand (R106) and as MOVE's source (R140). -/
theorem operands_of_xbit_zero {f : Fields} (h : f.xbit = 0#1) :
    operand3Of f = .reg f.rt ∧ moveSourceOf f = .reg f.rs :=
  ⟨if_pos h, if_pos h⟩

/-- X = 1 selects imm32, as third operand (R106) and as MOVE's source (R140). -/
theorem operands_of_xbit_one {f : Fields} (h : f.xbit = 1#1) :
    operand3Of f = .imm f.imm ∧ moveSourceOf f = .imm f.imm := by
  have hne : f.xbit ≠ 0#1 := by rw [h]; decide
  exact ⟨if_neg hne, if_neg hne⟩

/-- Settles O7: bit by bit, from the bits of a masked value. -/
theorem maskKeepsTheLowBytes : Obligations.MaskKeepsTheLowBytes :=
  ⟨toNat_maskToSize, rfl, rfl, rfl, rfl⟩

/-- Settles O8, by the operand each value of X selects. -/
theorem xBitSelectsTheOperand : Obligations.XBitSelectsTheOperand := by
  intro s f
  refine ⟨fun h0 => ?_, fun h1 => ?_⟩
  · obtain ⟨hop, hsrc⟩ := operands_of_xbit_zero h0
    exact ⟨by rw [hop, op3Value_reg], by rw [hsrc, moveSourceValue_reg]⟩
  · obtain ⟨hop, hsrc⟩ := operands_of_xbit_one h1
    exact ⟨by rw [hop, op3Value_imm, toNat_zextImm], by rw [hsrc, moveSourceValue_imm, toNat_zextImm]⟩

/-! ## The cycle: fetch, decode, run -/

/-- Decoding bytes answers an instruction exactly when there are 8 of them and their word decodes to it (R100,
R103). -/
theorem decode_eq_ok {bs : List Byte} {i : Instr} :
    decode bs = .ok i ↔ 8 ≤ bs.length ∧ decodeWord (wordOfBytes (bs.take 8)) = some i := by
  unfold decode
  split
  · next hshort => exact iff_of_false (by simp) fun h => Nat.not_lt_of_le h.1 hshort
  · next hlong =>
    have h8 : 8 ≤ bs.length := Nat.le_of_not_lt hlong
    cases decodeWord (wordOfBytes (bs.take 8)) <;> simp [h8]

/-- The masked PC as a number (R36, R68). -/
theorem toNat_fetchAddr (s : State) : (fetchAddr s).toNat = s.pc.toNat % 2 ^ 25 :=
  BitVec.toNat_setWidth ..

/-- A fetch answers exactly when its 8 bytes stay within the 25-bit space (R74). -/
theorem fetchInstr_eq_next {s : State} {r : Word × State} :
    fetchInstr s = .next r ↔
      s.pc.toNat % 2 ^ 25 + 8 ≤ 2 ^ 25 ∧
        r = (wordOfBytes (readBytes s (s.pc.toNat % 2 ^ 25) 8),
          noteAccess s (s.pc.toNat % 2 ^ 25) 8 (.fetch (s.pc.toNat % 2 ^ 25))) := by
  unfold fetchInstr fetchable fetchSpace
  rw [toNat_fetchAddr]
  split <;> simp_all [eq_comm]

/-- A fetched word that decodes runs its instruction (R16 step 5). -/
theorem runWord_of_decodeWord {w : Word} {i : Instr} (h : decodeWord w = some i) (s : State) :
    runWord w s = exec i s := by
  simp [runWord, h]

/-- Only a word that decodes answers a next state (R112). -/
theorem runWord_eq_next {w : Word} {s t : State} :
    runWord w s = .next t ↔ ∃ i, decodeWord w = some i ∧ exec i s = .next t := by
  unfold runWord
  cases decodeWord w <;> simp

/-- The cycle of R16: after the tick and the fetch, the step is the decoded instruction, whatever that answers. -/
theorem step_eq_exec {s s1 s2 : State} {w : Word} {i : Instr} (hrun : s.running = true)
    (htick : timerTick s = .next s1) (hfetch : fetchInstr s1 = .next (w, s2)) (hdec : decodeWord w = some i) :
    step s = exec i s2 := by
  rw [step, if_pos hrun, htick, andThen_next, fetchAndRun, hfetch, andThen_next, runWord_of_decodeWord hdec]

/-- A step that answers is a tick, a fetch and an instruction that answer (R16). -/
theorem step_eq_next {s t : State} :
    step s = .next t ↔ s.running = true ∧ ∃ s1 w s2 i, timerTick s = .next s1 ∧
      fetchInstr s1 = .next (w, s2) ∧ decodeWord w = some i ∧ exec i s2 = .next t := by
  constructor
  · intro h
    unfold step at h
    split at h
    · obtain ⟨s1, htick, hrest⟩ := andThen_eq_next.mp h
      obtain ⟨⟨w, s2⟩, hfetch, hword⟩ := andThen_eq_next.mp hrest
      obtain ⟨i, hdec, hexec⟩ := runWord_eq_next.mp hword
      exact ⟨‹_›, s1, w, s2, i, htick, hfetch, hdec, hexec⟩
    · cases h
  · rintro ⟨hrun, s1, w, s2, i, htick, hfetch, hdec, hexec⟩
    rw [step_eq_exec hrun htick hfetch hdec, hexec]

/-- Settles O12: `s2` is the state after the fetch, which only the platform may have seen. -/
theorem stepRunsTheDecodedInstruction : Obligations.StepRunsTheDecodedInstruction := by
  intro s s1 i hrun htick htop hdec
  have hfetch := fetchInstr_eq_next.mpr ⟨htop, rfl⟩
  have hword := (decode_eq_ok.mp hdec).2
  rw [List.take_of_length_le (length_readBytes ..).le] at hword
  obtain ⟨hregs, hpc, hmem, hcontrol⟩ := fetchInstr_frame hfetch
  exact ⟨_, step_eq_exec hrun htick hfetch hword, hpc, hregs, hcontrol, hmem, noteAccess_of_ram, noteAccess_busEvents⟩

/-! ## The invariant through the instructions and the step -/

/-- The invariant carries over from `s` to `t`, and the open parameters are the same (R6): what every part of a step
does. -/
def KeepsInvariant (s t : State) : Prop :=
  (s.Wf → t.Wf) ∧ t.parameters = s.parameters

theorem KeepsInvariant.trans {s t u : State} (h : KeepsInvariant s t) (k : KeepsInvariant t u) : KeepsInvariant s u :=
  ⟨fun hs => k.1 (h.1 hs), k.2.trans h.2⟩

theorem SameControl.parameters_eq {s t : State} (h : SameControl s t) : t.parameters = s.parameters := by
  obtain ⟨-, -, -, -, -, hp⟩ := h
  exact hp

theorem keepsInvariant_writeReg (s : State) (r : RegId) (v : Word) : KeepsInvariant s (writeReg s r v) :=
  ⟨wf_writeReg r v, writeReg_parameters s r v⟩

theorem keepsInvariant_setPc (s : State) (v : Word) : KeepsInvariant s (setPc s v) :=
  ⟨wf_setPc v, rfl⟩

theorem keepsInvariant_advancePc_writeReg (s : State) (r : RegId) (v : Word) :
    KeepsInvariant s (advancePc (writeReg s r v)) :=
  (keepsInvariant_writeReg s r v).trans (keepsInvariant_setPc ..)

theorem keepsInvariant_memRead {s : State} {a : Addr} {n : Nat} {r : Word × State} (h : memRead s a n = .next r) :
    KeepsInvariant s r.2 := by
  obtain ⟨-, -, -, hcontrol, -⟩ := memRead_spec h
  exact ⟨wf_memRead h, hcontrol.parameters_eq⟩

theorem keepsInvariant_memWrite {s t : State} {a : Addr} {n : Nat} {v : Word} (h : memWrite s a n v = .next t) :
    KeepsInvariant s t := by
  obtain ⟨-, -, hcontrol, -⟩ := memWrite_spec h
  exact ⟨wf_memWrite h, hcontrol.parameters_eq⟩

theorem keepsInvariant_pushWord {s t : State} {f : State → Word} (h : pushWord s f = .next t) :
    KeepsInvariant s t := by
  obtain ⟨-, -, hcontrol, -⟩ := pushWord_spec h
  exact ⟨wf_pushWord h, hcontrol.parameters_eq⟩

theorem keepsInvariant_popPc {s t : State} (h : popPc s = .next t) : KeepsInvariant s t := by
  obtain ⟨-, -, -, hcontrol, -⟩ := popPc_spec h
  exact ⟨wf_popPc h, hcontrol.parameters_eq⟩

theorem keepsInvariant_fetchInstr {s : State} {r : Word × State} (h : fetchInstr s = .next r) :
    KeepsInvariant s r.2 := by
  obtain ⟨-, -, -, hcontrol⟩ := fetchInstr_frame h
  exact ⟨wf_fetchInstr h, hcontrol.parameters_eq⟩

theorem keepsInvariant_timerTick {s t : State} (h : timerTick s = .next t) : KeepsInvariant s t :=
  ⟨wf_timerTick h, timerTick_parameters h⟩

/-- An instruction that only writes a register and advances. -/
theorem keepsInvariant_of_register {s t : State} {rd : RegId} {v : Word}
    (h : (.next (advancePc (writeReg s rd v)) : Result) = .next t) : KeepsInvariant s t := by
  cases h
  exact keepsInvariant_advancePc_writeReg ..

/-- A conditional branch, taken or not. -/
theorem keepsInvariant_conditionalBranch {cond : Word → Word → Bool} {rs rt : RegId} {off : Imm} {s t : State}
    (h : conditionalBranch cond rs rt off s = .next t) : KeepsInvariant s t := by
  unfold conditionalBranch at h
  split at h
  · cases h; exact keepsInvariant_setPc ..
  · cases h; exact keepsInvariant_setPc ..

/-- Every instruction keeps the invariant and the open parameters: it writes registers, sets the PC or a control flag
that the invariant does not speak of, or goes through a memory access. -/
theorem keepsInvariant_exec {i : Instr} {s t : State} (h : exec i s = .next t) : KeepsInvariant s t := by
  cases i with
  | move | movt | moveq | lea | add | sub | mulu | muls | divu | divs | mod | neg | and | or | eor | not | lsl | lsr
  | asr => exact keepsInvariant_of_register h
  | load =>
    obtain ⟨r, hread, hnext⟩ := andThen_eq_next.mp h
    exact (keepsInvariant_memRead hread).trans (keepsInvariant_of_register hnext)
  | store =>
    obtain ⟨u, hwrite, hnext⟩ := andThen_eq_next.mp h
    cases hnext
    exact (keepsInvariant_memWrite hwrite).trans (keepsInvariant_setPc ..)
  | beq | bne | blt | bge | bgt | ble | bhi | bls => exact keepsInvariant_conditionalBranch h
  | jsr | push =>
    obtain ⟨u, hpush, hnext⟩ := andThen_eq_next.mp h
    cases hnext
    exact (keepsInvariant_pushWord hpush).trans (keepsInvariant_setPc ..)
  | rts => exact keepsInvariant_popPc h
  | pop =>
    obtain ⟨r, hread, hnext⟩ := andThen_eq_next.mp h
    cases hnext
    exact (keepsInvariant_memRead hread).trans
      ((keepsInvariant_writeReg ..).trans (keepsInvariant_advancePc_writeReg ..))
  | rti =>
    obtain ⟨u, hpop, hnext⟩ := andThen_eq_next.mp h
    cases hnext
    exact (keepsInvariant_popPc hpop).trans ⟨id, rfl⟩
  | bra | nop | halt | sei | cli | wait =>
    cases h
    exact ⟨id, rfl⟩

/-- Settles O57: tick, fetch and instruction each keep the invariant. -/
theorem stepKeepsTheInvariant : Obligations.StepKeepsTheInvariant := by
  intro s t hwf h
  obtain ⟨-, s1, w, s2, i, htick, hfetch, -, hexec⟩ := step_eq_next.mp h
  have hkeep : KeepsInvariant s t :=
    (keepsInvariant_timerTick htick).trans ((keepsInvariant_fetchInstr hfetch).trans (keepsInvariant_exec hexec))
  exact ⟨hkeep.1 hwf, hkeep.2⟩

end Sys2Proof.Machine
end

section
/-! The state of 10_state.md: its values after reset, a result written to R0, and which instructions write the control
fields (R31, R41 to R49, R53). -/

namespace Sys2Proof.Machine

/-! ## After reset -/

/-- After reset SP holds `STACK_START`, every other register 0 (R53). -/
theorem readReg_resetOn (p : Parameters) (r : RegId) :
    readReg (State.resetOn p) r = if r = sp then Config.stackStart else 0#64 := by
  by_cases hzero : r = 0#5
  · rw [hzero, readReg_zero, if_neg sp_ne_zero.symm]
  · simp only [readReg, if_neg hzero, State.resetOn, Vector.getElem_set, Vector.getElem_replicate]
    exact if_congr (eq_comm.trans (BitVec.toNat_eq (y := sp)).symm) rfl rfl

/-- Settles O55: the registers by what each of them reads after reset, the other fields by the definition of reset. -/
theorem resetLeavesTheStatedValues : Obligations.ResetLeavesTheStatedValues := by
  refine ⟨rfl, fun p => ⟨rfl, rfl, readReg_resetOn p sp, fun r hr => ?_, rfl, rfl, rfl, rfl, rfl, rfl, rfl, rfl, rfl, rfl,
    rfl⟩⟩
  exact (readReg_resetOn p r).trans (if_neg hr)

/-- Settles O56: no byte is listed and no access has been delivered; R0's element, the counter and the timer state are
reset's. -/
theorem resetMeetsTheInvariant : Obligations.ResetMeetsTheInvariant := by
  intro p
  have hmem : Memory.wf p [] := ⟨.nil, fun _ hc => absurd hc List.not_mem_nil⟩
  have hcounter : 0 < Config.sampleRate := by decide
  exact ⟨hmem, rfl, hcounter, .inl rfl, fun _ he => absurd he List.not_mem_nil⟩

/-! ## What LOAD and POP do -/

/-- What leaves every byte and the platform alone does not disturb the effect of a read before it. -/
theorem ReadAccess.trans_sameBytes {s t u : State} {a : Addr} {n : Nat} (h : ReadAccess s t a n)
    (hsame : SameBytes t u) : ReadAccess s u a n := by
  obtain ⟨hram, hinside, hplatform⟩ := h
  exact ⟨fun b hb => (hsame.1 b).trans (hram b hb), fun ht => (hinside ht).trans hsame,
    fun ht => hsame.2.trans (hplatform ht)⟩

/-- All that an admitted LOAD does (R151). -/
theorem exec_load_spec {sz : Size} {rd rs : RegId} {disp : Imm} {s : State}
    (hadm : (effectiveAddr s rs disp).toNat + sizeBytes sz ≤ accessLimit s.parameters) :
    ∃ t, exec (.load sz rd rs disp) s = .next t ∧
      OnlyRegWritten s t rd (wordOfBytes (readBytes s (effectiveAddr s rs disp).toNat (sizeBytes sz))) ∧
      t.pc = s.pc + 8#64 ∧ SameControl s t ∧ t.mem = s.mem ∧
      ReadAccess s t (effectiveAddr s rs disp) (sizeBytes sz) := by
  have hread := memRead_eq_next.mpr ⟨hadm, rfl⟩
  obtain ⟨hregs, hpc, hmem, hcontrol, haccess⟩ := memRead_spec hread
  obtain ⟨hwritten, hadvanced, hkept, hbytes⟩ := registerEffect_writeReg _ rd _
  refine ⟨_, andThen_eq_next.mpr ⟨_, hread, rfl⟩, fun r => ?_, ?_, hcontrol.trans hkept, ?_,
    haccess.trans_sameBytes hbytes⟩
  · rw [hwritten r, hregs r]
  · rw [hadvanced, hpc]
  · rw [advancePc_mem, writeReg_mem, hmem]

/-- All that an admitted POP does: Rd is written first, and SP moves up by 8 from what it then holds (R224, D17). -/
theorem exec_pop_spec {rd : RegId} {s : State} (hadm : (stackAddr s).toNat + 8 ≤ accessLimit s.parameters) :
    ∃ t, exec (.pop rd) s = .next t ∧
      SameRegs (incrementSp (writeReg s rd (wordOfBytes (readBytes s (stackAddr s).toNat 8)))) t ∧
      t.pc = s.pc + 8#64 ∧ SameControl s t ∧ t.mem = s.mem ∧ ReadAccess s t (stackAddr s) 8 := by
  have hread := memRead_eq_next.mpr ⟨hadm, rfl⟩
  obtain ⟨hregs, -, -, hcontrol, haccess⟩ := memRead_spec hread
  refine ⟨_, andThen_eq_next.mpr ⟨_, hread, rfl⟩, fun r => ?_, ?_, ?_, ?_, ?_⟩
  · simp only [readReg_advancePc, readReg_incrementSp, readReg_writeReg, hregs sp, hregs r]
  · simp
  · exact hcontrol.trans ((sameControl_writeReg ..).trans ((sameControl_writeReg ..).trans (sameControl_setPc ..)))
  · simp
  · exact haccess.trans_sameBytes ((sameBytes_writeReg ..).trans ((sameBytes_writeReg ..).trans (sameBytes_setPc ..)))

/-! ## Results into R0 -/

/-- A write to R0 leaves every register as it was (R31). -/
theorem OnlyRegWritten.sameRegs_of_zero {s t : State} {v : Word} (h : OnlyRegWritten s t 0#5 v) : SameRegs s t :=
  fun r => (h r).trans (if_neg fun hr => hr.2 rfl)

/-- An instruction that only writes Rd and advances, only advances when Rd is R0 (R31). -/
theorem jumpEffect_of_register_zero {i : Instr} {s : State} {v : Word}
    (h : exec i s = .next (advancePc (writeReg s 0#5 v))) :
    ∃ t, exec i s = .next t ∧ JumpEffect s t (s.pc + 8#64) := by
  obtain ⟨hwritten, hpc, hcontrol, hbytes⟩ := registerEffect_writeReg s 0#5 v
  exact ⟨_, h, hpc, hwritten.sameRegs_of_zero, hcontrol, hbytes⟩

/-- Settles O6: the register instructions only advance; LOAD and POP keep the effect they have for every Rd, less the
write. -/
theorem resultsIntoR0AreDropped : Obligations.ResultsIntoR0AreDropped := by
  intro s sz rs op src imm
  refine ⟨readReg_zero s, fun i hi => ?_, fun hadm => ?_, fun hadm => ?_⟩
  · simp only [List.mem_cons, List.not_mem_nil, or_false] at hi
    rcases hi with rfl | rfl | rfl | rfl | rfl | rfl | rfl | rfl | rfl | rfl | rfl | rfl | rfl | rfl | rfl | rfl | rfl |
      rfl | rfl <;> exact jumpEffect_of_register_zero rfl
  · obtain ⟨t, hexec, hwritten, hpc, hcontrol, hmem, haccess⟩ := exec_load_spec (rd := 0#5) hadm
    exact ⟨t, hexec, hpc, hwritten.sameRegs_of_zero, hcontrol, hmem, haccess⟩
  · obtain ⟨t, hexec, hregs, hpc, hcontrol, hmem, haccess⟩ := exec_pop_spec (rd := 0#5) hadm
    rw [writeReg_zero] at hregs
    exact ⟨t, hexec, hpc, fun r => (hregs r).trans (readReg_writeReg s sp r _), hcontrol, hmem, haccess⟩

/-! ## Which instructions write the control fields -/

/-- An instruction that only writes a register and advances. -/
theorem sameControl_of_register {s t : State} {rd : RegId} {v : Word}
    (h : (.next (advancePc (writeReg s rd v)) : Result) = .next t) : SameControl s t := by
  cases h
  exact (sameControl_writeReg ..).trans (sameControl_setPc ..)

/-- A conditional branch, taken or not. -/
theorem sameControl_conditionalBranch {cond : Word → Word → Bool} {rs rt : RegId} {off : Imm} {s t : State}
    (h : conditionalBranch cond rs rt off s = .next t) : SameControl s t := by
  obtain ⟨u, hu, -, -, hcontrol, -⟩ := conditionalBranch_spec cond rs rt off s
  rw [hu] at h
  cases h
  exact hcontrol

theorem sameControl_popPc {s t : State} (h : popPc s = .next t) : SameControl s t := by
  obtain ⟨-, -, -, hcontrol, -⟩ := popPc_spec h
  exact hcontrol

/-- Every instruction but SEI, CLI, RTI and HALT leaves all control fields and the open parameters alone (R236). -/
theorem sameControl_exec {i : Instr} {s t : State} (hsei : i ≠ .sei) (hcli : i ≠ .cli) (hrti : i ≠ .rti)
    (hhalt : i ≠ .halt) (h : exec i s = .next t) : SameControl s t := by
  cases i with
  | move | movt | moveq | lea | add | sub | mulu | muls | divu | divs | mod | neg | and | or | eor | not | lsl | lsr
  | asr => exact sameControl_of_register h
  | load =>
    obtain ⟨r, hread, hnext⟩ := andThen_eq_next.mp h
    obtain ⟨-, -, -, hcontrol, -⟩ := memRead_spec hread
    exact hcontrol.trans (sameControl_of_register hnext)
  | store =>
    obtain ⟨u, hwrite, hnext⟩ := andThen_eq_next.mp h
    cases hnext
    obtain ⟨-, -, hcontrol, -⟩ := memWrite_spec hwrite
    exact hcontrol.trans (sameControl_setPc ..)
  | beq | bne | blt | bge | bgt | ble | bhi | bls => exact sameControl_conditionalBranch h
  | jsr | push =>
    obtain ⟨u, hpush, hnext⟩ := andThen_eq_next.mp h
    cases hnext
    obtain ⟨-, -, hcontrol, -⟩ := pushWord_spec hpush
    exact hcontrol.trans (sameControl_setPc ..)
  | rts => exact sameControl_popPc h
  | pop =>
    obtain ⟨r, hread, hnext⟩ := andThen_eq_next.mp h
    obtain ⟨-, -, -, hcontrol, -⟩ := memRead_spec hread
    exact hcontrol.trans ((sameControl_writeReg ..).trans (sameControl_of_register hnext))
  | bra | nop | wait =>
    cases h
    exact sameControl_setPc ..
  | sei => exact absurd rfl hsei
  | cli => exact absurd rfl hcli
  | rti => exact absurd rfl hrti
  | halt => exact absurd rfl hhalt

/-- RTI clears `inInterrupt`; of the other control fields it writes none (R234). -/
theorem exec_rti_control {s t : State} (h : exec .rti s = .next t) :
    SameTimer s t ∧ t.parameters = s.parameters ∧ t.interruptVector = s.interruptVector ∧
      t.interruptEnabled = s.interruptEnabled ∧ t.inInterrupt = false ∧ t.running = s.running := by
  obtain ⟨u, hpop, hnext⟩ := andThen_eq_next.mp h
  cases hnext
  obtain ⟨henabled, -, hvector, hrunning, htimer, hparameters⟩ := sameControl_popPc hpop
  exact ⟨htimer, hparameters, hvector, henabled, rfl, hrunning⟩

/-- Settles O58: SEI, CLI, HALT and RTI by their own effect, every other instruction by leaving all control fields
alone. -/
theorem controlStateHasItsOwnInstructions : Obligations.ControlStateHasItsOwnInstructions := by
  intro i s t h
  by_cases hsei : i = .sei
  · subst hsei
    cases h
    exact ⟨.refl s, rfl, rfl, fun hne => absurd rfl hne, rfl, rfl⟩
  by_cases hcli : i = .cli
  · subst hcli
    cases h
    exact ⟨.refl s, rfl, rfl, fun _ hne => absurd rfl hne, rfl, rfl⟩
  by_cases hhalt : i = .halt
  · subst hhalt
    cases h
    exact ⟨.refl s, rfl, rfl, fun _ _ => rfl, rfl, rfl⟩
  by_cases hrti : i = .rti
  · subst hrti
    obtain ⟨htimer, hparameters, hvector, henabled, hcleared, hrunning⟩ := exec_rti_control h
    exact ⟨htimer, hparameters, hvector, fun _ _ => henabled, hcleared, hrunning⟩
  · obtain ⟨henabled, hservice, hvector, hrunning, htimer, hparameters⟩ := sameControl_exec hsei hcli hrti hhalt h
    exact ⟨htimer, hparameters, hvector, fun _ _ => henabled, by rw [if_neg hrti, hservice],
      by rw [if_neg hhalt, hrunning]⟩

end Sys2Proof.Machine
end

section
/-! Memory: effective addresses, the parts of a written value, a store that the next fetch sees, accesses that are not
admitted, and the instructions that leave memory alone (20_memory.md R60 to R74, R83). -/

namespace Sys2Proof.Machine

/-! ## Addresses -/

/-- Truncation to 32 bits is the remainder of the signed value (R13). -/
theorem toNat_trunc32 (v : Word) : ((trunc32 v).toNat : Int) = v.toInt % 2 ^ 32 := by
  rw [trunc32, BitVec.toNat_setWidth, BitVec.toInt_eq_toNat_bmod, Int.bmod_def]
  omega

/-- A sum that wraps at 64 bits has the same remainder by 2^32 as the sum of the signed values. -/
theorem toInt_add_emod (v w : Word) : (v + w).toInt % 2 ^ 32 = (v.toInt + w.toInt) % 2 ^ 32 := by
  rw [BitVec.toInt_add, Int.bmod_def]
  omega

/-- Settles O9: the wrap at 64 bits is lost in the truncation. -/
theorem effectiveAddressIsTheSumModulo32Bits : Obligations.EffectiveAddressIsTheSumModulo32Bits := by
  intro s rs disp
  rw [effectiveAddr, toNat_trunc32, displaced, toInt_add_emod, toInt_sextImm]

/-! ## Reading back what was written to RAM -/

/-- Byte `k` of a value written to plain RAM reads back (R60, R70). -/
theorem readByte_of_memWrite {s t : State} {a : Addr} {m k : Nat} {v : Word} (h : memWrite s a m v = .next t)
    (hram : touchesPlatform s.parameters a.toNat m = false) (hk : k < m) :
    readByte t (a.toNat + k) = v.extractLsb' (8 * k) 8 := by
  obtain ⟨-, -, -, hwritten, -⟩ := memWrite_spec h
  exact hwritten k hk ((touchesPlatform_eq_false ..).mp hram k hk)

/-- Bytes that are those of a value from byte `k` on have as their value that part of it (R60). -/
theorem wordOfBytes_readBytes {t : State} {v : Word} {a k n : Nat}
    (h : ∀ j, j < n → readByte t (a + j) = v.extractLsb' (8 * (k + j)) 8) :
    wordOfBytes (readBytes t a n) = (v.extractLsb' (8 * k) (8 * n)).setWidth 64 := by
  refine BitVec.eq_of_getLsbD_eq fun i hi => ?_
  rw [getLsbD_wordOfBytes _ _ hi, BitVec.getLsbD_setWidth, BitVec.getLsbD_extractLsb']
  by_cases hin : i / 8 < n
  · have hlen : i < 8 * n := by omega
    have hbit : 8 * (k + i / 8) + i % 8 = 8 * k + i := by omega
    rw [getD_readBytes _ _ _ _ hin, h _ hin, BitVec.getLsbD_extractLsb', hbit]
    simp [hi, hlen, Nat.mod_lt]
  · have hlen : ¬ i < 8 * n := by omega
    rw [List.getD_eq_default _ _ (by simpa using hin)]
    simp [hlen]

/-- The value of `n` bytes from byte `k` on of a value written to plain RAM (R61). -/
theorem wordOfBytes_readBytes_of_memWrite {s t : State} {a : Addr} {m k n : Nat} {v : Word}
    (h : memWrite s a m v = .next t) (hram : touchesPlatform s.parameters a.toNat m = false) (hpart : k + n ≤ m) :
    wordOfBytes (readBytes t (a.toNat + k) n) = (v.extractLsb' (8 * k) (8 * n)).setWidth 64 :=
  wordOfBytes_readBytes fun j hj => by
    rw [Nat.add_assoc]
    exact readByte_of_memWrite h hram (by omega)

/-- A part of an access to plain RAM is one itself. -/
theorem touchesPlatform_part {p : Parameters} {a m k n : Nat} (hram : touchesPlatform p a m = false)
    (hpart : k + n ≤ m) : touchesPlatform p (a + k) n = false :=
  (touchesPlatform_eq_false ..).mpr fun j hj => by
    rw [Nat.add_assoc]
    exact (touchesPlatform_eq_false ..).mp hram (k + j) (by omega)

/-- An address within an admitted access does not wrap around (R71). -/
theorem toNat_add_of_admitted {p : Parameters} {a : Addr} {m k : Nat} (hadm : a.toNat + m ≤ accessLimit p)
    (hk : k < m) : (a + BitVec.ofNat 32 k).toNat = a.toNat + k := by
  have hspace := accessLimit_le_space p
  rw [BitVec.toNat_add, BitVec.toNat_ofNat]
  omega

/-- A read of a part of what was just written to plain RAM gives those bits of the value and changes nothing (R61,
R69). -/
theorem memRead_part_of_memWrite {s t : State} {a : Addr} {m k n : Nat} {v : Word} (h : memWrite s a m v = .next t)
    (hram : touchesPlatform s.parameters a.toNat m = false) (hn : 0 < n) (hpart : k + n ≤ m) :
    memRead t (a + BitVec.ofNat 32 k) n = .next ((v.extractLsb' (8 * k) (8 * n)).setWidth 64, t) := by
  obtain ⟨-, -, hcontrol, -⟩ := memWrite_spec h
  have hadm := (memWrite_eq_next.mp h).1
  rw [memRead_eq_next, toNat_add_of_admitted hadm (by omega), hcontrol.parameters_eq,
    wordOfBytes_readBytes_of_memWrite h hram hpart,
    noteAccess_of_ram (hcontrol.parameters_eq ▸ touchesPlatform_part hram hpart)]
  exact ⟨by omega, rfl⟩

/-- Settles O10: bytes, 2-byte parts, 4-byte parts and the whole are parts of the value. -/
theorem narrowReadsSeeTheWideWrite : Obligations.NarrowReadsSeeTheWideWrite := by
  intro s t a v h hram
  refine ⟨fun k hk => ?_, fun k hk => ?_, fun k hk => ?_, ?_⟩
  · exact memRead_part_of_memWrite (n := 1) h hram (Nat.zero_lt_succ _) (by omega)
  · rw [show 16 * k = 8 * (2 * k) by omega]
    exact memRead_part_of_memWrite (n := 2) h hram (Nat.zero_lt_succ _) (by omega)
  · rw [show 32 * k = 8 * (4 * k) by omega]
    exact memRead_part_of_memWrite (n := 4) h hram (Nat.zero_lt_succ _) (by omega)
  · simpa using memRead_part_of_memWrite (k := 0) (n := 8) h hram (Nat.zero_lt_succ _) (Nat.le_refl 8)

/-! ## Fetching -/

/-- A STORE that answers is its write and the advance of the PC (R152). -/
theorem exec_store_eq_next {sz : Size} {rd rs : RegId} {disp : Imm} {s t : State} :
    exec (.store sz rd rs disp) s = .next t ↔ ∃ u,
      memWrite s (effectiveAddr s rs disp) (sizeBytes sz) (maskToSize sz (readReg s rd)) = .next u ∧
        t = advancePc u :=
  andThen_eq_next.trans (by simp [eq_comm])

/-- Settles O11: the fetch reads the 8 bytes the STORE has written, all of them RAM. -/
theorem storeIsSeenByTheNextFetch : Obligations.StoreIsSeenByTheNextFetch := by
  intro s t rd rs disp h haddr htop hram
  obtain ⟨u, hstore, rfl⟩ := exec_store_eq_next.mp h
  have hwrite : memWrite s (effectiveAddr s rs disp) 8 (readReg s rd) = .next u := hstore
  obtain ⟨-, hpc, hcontrol, -⟩ := memWrite_spec hwrite
  have hfetch : (advancePc u).pc.toNat % 2 ^ 25 = (s.pc.toNat + 8) % 2 ^ 25 := by
    rw [advancePc_pc, hpc, BitVec.toNat_add, BitVec.toNat_ofNat]
    omega
  have hvalue : wordOfBytes (readBytes u (effectiveAddr s rs disp).toNat 8) = readReg s rd := by
    simpa using wordOfBytes_readBytes_of_memWrite (k := 0) (n := 8) hwrite hram (Nat.le_refl 8)
  have hbytes : ∀ a, readBytes (advancePc u) a 8 = readBytes u a 8 := fun a => readBytes_congr fun _ _ => rfl
  have hunseen : touchesPlatform (advancePc u).parameters (effectiveAddr s rs disp).toNat 8 = false := by
    rwa [advancePc_parameters, hcontrol.parameters_eq]
  rw [fetchInstr_eq_next, hfetch, ← haddr, hbytes, hvalue, noteAccess_of_ram hunseen]
  exact ⟨haddr ▸ htop, rfl⟩

/-- A fetch faults exactly when its 8 bytes pass the top of the 25-bit space (R74, D7). -/
theorem fetchInstr_eq_fault {s : State} {f : Fault} :
    fetchInstr s = .fault f ↔ ¬ s.pc.toNat % 2 ^ 25 + 8 ≤ 2 ^ 25 ∧ f = .fetchBeyondTop (fetchAddr s) := by
  unfold fetchInstr fetchable fetchSpace
  rw [toNat_fetchAddr]
  split <;> simp_all [eq_comm]

/-- A fetch that faults is the end of the step (R16). -/
theorem step_of_fetch_fault {s s1 : State} {f : Fault} (hrun : s.running = true) (htick : timerTick s = .next s1)
    (hfetch : fetchInstr s1 = .fault f) : step s = .fault f := by
  rw [step, if_pos hrun, htick, andThen_next, fetchAndRun, hfetch, andThen_fault]

/-- Settles O14, by the fault of the fetch. -/
theorem fetchPastTheTopStops : Obligations.FetchPastTheTopStops := by
  intro s s1 hrun htick hbeyond
  have haddr : BitVec.ofNat 25 s1.pc.toNat = fetchAddr s1 := BitVec.ofNat_toNat ..
  rw [haddr]
  exact step_of_fetch_fault hrun htick (fetchInstr_eq_fault.mpr ⟨by omega, rfl⟩)

/-! ## Accesses that are not admitted -/

/-- A fault of the first part is the fault of the whole. -/
theorem andThen_of_fault {α β : Type} {x : Host.Outcome α Fault Refusal} {f : α → Host.Outcome β Fault Refusal}
    {r : Fault} (h : x = .fault r) : andThen x f = .fault r :=
  andThen_eq_fault.mpr (.inl h)

/-- A push faults exactly when its slot is not admitted (R71, R220). -/
theorem pushWord_eq_fault {s : State} {value : State → Word} {f : Fault} :
    pushWord s value = .fault f ↔ ¬ (stackAddr (decrementSp s)).toNat + 8 ≤ accessLimit s.parameters ∧
      f = .accessBeyondMemory .write (stackAddr (decrementSp s)) 8 := by
  rw [pushWord, memWrite_eq_fault, decrementSp_parameters]

/-- Being in service takes no part in where a push goes (R220, R290). -/
theorem stackAddr_decrementSp_inInterrupt (s : State) (b : Bool) :
    stackAddr (decrementSp { s with inInterrupt := b }) = stackAddr (decrementSp s) := by
  simp [stackAddr, readReg_decrementSp]

/-- Interrupt entry faults exactly when the slot of the saved PC is not admitted (R71, R290). -/
theorem interruptEntry_eq_fault {s : State} {f : Fault} :
    interruptEntry s = .fault f ↔ ¬ (stackAddr (decrementSp s)).toNat + 8 ≤ accessLimit s.parameters ∧
      f = .accessBeyondMemory .write (stackAddr (decrementSp s)) 8 := by
  rw [interruptEntry, andThen_eq_fault, pushWord_eq_fault, stackAddr_decrementSp_inInterrupt]
  simp

/-- The read of a pop faults exactly when its slot is not admitted (R71, R220). -/
theorem popRead_eq_fault {s : State} {f : Fault} :
    popRead s = .fault f ↔ ¬ (stackAddr s).toNat + 8 ≤ accessLimit s.parameters ∧
      f = .accessBeyondMemory .read (stackAddr s) 8 :=
  memRead_eq_fault

/-- Settles O40: in each of these the access comes first, and its fault is the answer. -/
theorem unadmittedAccessesStop : Obligations.UnadmittedAccessesStop := by
  intro sz rd rs disp off s
  refine ⟨fun hdata => ?_, fun hslot => ?_, fun hslot => ?_⟩
  · have hbeyond := Nat.not_le_of_lt hdata
    exact ⟨andThen_of_fault (memRead_eq_fault.mpr ⟨hbeyond, rfl⟩),
      andThen_of_fault (memWrite_eq_fault.mpr ⟨hbeyond, rfl⟩)⟩
  · have hbeyond := Nat.not_le_of_lt hslot
    exact ⟨andThen_of_fault (pushWord_eq_fault.mpr ⟨hbeyond, rfl⟩),
      andThen_of_fault (pushWord_eq_fault.mpr ⟨hbeyond, rfl⟩), interruptEntry_eq_fault.mpr ⟨hbeyond, rfl⟩⟩
  · have hread := popRead_eq_fault.mpr ⟨Nat.not_le_of_lt hslot, rfl⟩
    have hpop : popPc s = .fault (.accessBeyondMemory .read (stackAddr s) 8) := andThen_of_fault hread
    exact ⟨hpop, andThen_of_fault hpop, andThen_of_fault hread⟩

/-! ## Which instructions leave memory alone -/

/-- A RAM byte depends on the contents of memory alone (R64). -/
theorem readByte_of_mem_eq {s t : State} {a : Nat} (hmem : t.mem = s.mem) (hparameters : t.parameters = s.parameters)
    (hram : isRam s.parameters a = true) : readByte t a = readByte s a := by
  rw [readByte_ram s hram, readByte_ram t (hparameters ▸ hram), hmem]

/-- An instruction that only writes a register and advances. -/
theorem mem_of_register {s t : State} {rd : RegId} {v : Word}
    (h : (.next (advancePc (writeReg s rd v)) : Result) = .next t) : t.mem = s.mem := by
  cases h
  exact writeReg_mem ..

/-- A conditional branch, taken or not. -/
theorem mem_conditionalBranch {cond : Word → Word → Bool} {rs rt : RegId} {off : Imm} {s t : State}
    (h : conditionalBranch cond rs rt off s = .next t) : t.mem = s.mem := by
  unfold conditionalBranch at h
  split at h
  · cases h; rfl
  · cases h; rfl

theorem mem_memRead {s : State} {a : Addr} {n : Nat} {r : Word × State} (h : memRead s a n = .next r) :
    r.2.mem = s.mem := by
  obtain ⟨-, -, hmem, -⟩ := memRead_spec h
  exact hmem

theorem mem_popPc {s t : State} (h : popPc s = .next t) : t.mem = s.mem := by
  obtain ⟨-, -, hmem, -⟩ := popPc_spec h
  exact hmem

/-- Of the instructions, only STORE, PUSH and JSR go through a write of memory (R62). -/
theorem mem_exec {i : Instr} {s t : State} (hstore : ∀ sz rd rs disp, i ≠ .store sz rd rs disp)
    (hpush : ∀ rs, i ≠ .push rs) (hjsr : ∀ off, i ≠ .jsr off) (h : exec i s = .next t) : t.mem = s.mem := by
  cases i with
  | move | movt | moveq | lea | add | sub | mulu | muls | divu | divs | mod | neg | and | or | eor | not | lsl | lsr
  | asr => exact mem_of_register h
  | load =>
    obtain ⟨r, hread, hnext⟩ := andThen_eq_next.mp h
    exact (mem_of_register hnext).trans (mem_memRead hread)
  | beq | bne | blt | bge | bgt | ble | bhi | bls => exact mem_conditionalBranch h
  | rts => exact mem_popPc h
  | pop =>
    obtain ⟨r, hread, hnext⟩ := andThen_eq_next.mp h
    exact (mem_of_register hnext).trans ((writeReg_mem ..).trans (mem_memRead hread))
  | rti =>
    obtain ⟨u, hpop, hnext⟩ := andThen_eq_next.mp h
    cases hnext
    have hmem := mem_popPc hpop
    exact hmem
  | bra | nop | halt | sei | cli | wait =>
    cases h
    rfl
  | store => exact absurd rfl (hstore _ _ _ _)
  | push => exact absurd rfl (hpush _)
  | jsr => exact absurd rfl (hjsr _)

/-- Settles O59: memory and the open parameters are as before, so every RAM byte is. -/
theorem onlyStorePushAndJsrWriteMemory : Obligations.OnlyStorePushAndJsrWriteMemory := by
  intro i s t h hstore hpush hjsr
  have hmem := mem_exec hstore hpush hjsr h
  exact ⟨hmem, fun _ => readByte_of_mem_eq hmem (keepsInvariant_exec h).2⟩

end Sys2Proof.Machine
end

section
/-! The encoding: which opcode bytes decode and to what, the bits that take part in decoding, the stop of an unassigned
opcode, and decoding as the inverse of encoding (30_encoding.md R100 to R116). -/

namespace Sys2Proof.Machine

/-! ## The opcode map -/

/-- The opcode selects the row of the map, so it may be replaced by what it equals (R109). -/
theorem instrOfFields_of_opcode {f : Fields} {op : Byte} (h : f.opcode = op) :
    instrOfFields f = instrOfFields { f with opcode := op } := by
  subst h
  rfl

/-- The map has a row for exactly the opcodes that have a form (R109, R110). -/
theorem isSome_instrOfFields (f : Fields) : (instrOfFields f).isSome = (formOf f.opcode).isSome := by
  unfold instrOfFields formOf
  split
  all_goals simp_all only [Option.isSome_some, Option.isSome_none]

/-- The opcodes with a form are those of the ranges, byte by byte (R110, R111). -/
theorem isSome_formOf : ∀ op : Byte, (formOf op).isSome = opcodeAssigned op := by decide

/-- No instruction exactly for the opcodes outside the ranges (R112). -/
theorem instrOfFields_eq_none {f : Fields} : instrOfFields f = none ↔ opcodeAssigned f.opcode = false := by
  rw [← isSome_formOf, ← isSome_instrOfFields, Option.isSome_eq_false_iff, Option.isNone_iff_eq_none]

/-- Settles O5: the 40 rows of the map, then the bytes outside it. -/
theorem opcodeMapSelectsInstruction : Obligations.OpcodeMapSelectsInstruction := by
  intro f
  iterate 40 refine ⟨instrOfFields_of_opcode, ?_⟩
  exact instrOfFields_eq_none.mpr

/-- Settles O2: the opcode byte of the word has a form exactly when it is in a range. -/
theorem decoderAcceptsExactlyAssignedOpcodes : Obligations.DecoderAcceptsExactlyAssignedOpcodes := by
  intro w
  exact (isSome_instrOfFields (fieldsOf w)).trans (isSome_formOf _)

/-- Settles O4: five runs of the decoder on written-out bytes. -/
theorem sourceExamplesDecode : Obligations.SourceExamplesDecode := by
  refine ⟨?_, ?_, ?_, ?_, ?_, ?_, ?_⟩ <;> decide

/-! ## The unassigned opcode -/

/-- The opcode is the first byte (R101, R102). -/
theorem opcode_wordOfBytes_cons (b : Byte) (bs : List Byte) : (fieldsOf (wordOfBytes (b :: bs))).opcode = b := by
  refine BitVec.eq_of_getLsbD_eq fun i hi => ?_
  have hbit : i < 64 := by omega
  simp [fieldsOf, wordOfBytes, hi, hbit]

/-- A word with an unassigned opcode stops with the invalid-opcode fault (R112, R281). -/
theorem runWord_of_unassigned {w : Word} (h : opcodeAssigned (fieldsOf w).opcode = false) (s : State) :
    runWord w s = .fault (.invalidOpcode (fieldsOf w).opcode) := by
  have hdec : decodeWord w = none := instrOfFields_eq_none.mpr h
  rw [runWord, hdec]

/-- A step whose fetch answers is the run of the fetched word, whatever that answers (R16). -/
theorem step_eq_runWord {s s1 s2 : State} {w : Word} (hrun : s.running = true) (htick : timerTick s = .next s1)
    (hfetch : fetchInstr s1 = .next (w, s2)) : step s = runWord w s2 := by
  rw [step, if_pos hrun, htick, andThen_next, fetchAndRun, hfetch, andThen_next]

/-- Settles O13: the byte at the masked PC is the opcode of the fetched word. -/
theorem unassignedOpcodeStops : Obligations.UnassignedOpcodeStops := by
  intro s s1 hrun htick htop hunassigned
  have hfetch := fetchInstr_eq_next.mpr ⟨htop, rfl⟩
  have hop : (fieldsOf (wordOfBytes (readBytes s1 (s1.pc.toNat % 2 ^ 25) 8))).opcode =
      readByte s1 (s1.pc.toNat % 2 ^ 25) := opcode_wordOfBytes_cons ..
  rw [step_eq_runWord hrun htick hfetch, runWord_of_unassigned (hop ▸ hunassigned), hop]

/-! ## The bits that take part -/

/-- Two tuples of fields give a form the same operands: what R109 lists as its fields used, with the one of the
operands that the X bit selects (R106, R140). -/
def SameOperands (f g : Fields) : Form → Prop
  | .mov => f.size = g.size ∧ f.rd = g.rd ∧ moveSourceOf f = moveSourceOf g
  | .di => f.rd = g.rd ∧ f.imm = g.imm
  | .dsi => f.rd = g.rd ∧ f.rs = g.rs ∧ f.imm = g.imm
  | .mem => f.size = g.size ∧ f.rd = g.rd ∧ f.rs = g.rs ∧ f.imm = g.imm
  | .alu3 => f.size = g.size ∧ f.rd = g.rd ∧ f.rs = g.rs ∧ operand3Of f = operand3Of g
  | .alu2 => f.size = g.size ∧ f.rd = g.rd ∧ f.rs = g.rs
  | .rel => f.imm = g.imm
  | .bcc => f.rs = g.rs ∧ f.rt = g.rt ∧ f.imm = g.imm
  | .s => f.rs = g.rs
  | .d => f.rd = g.rd
  | .none => True
  | .imm => f.imm = g.imm

/-- The opcode and the operands of its form determine the instruction, row by row of the map (R109, R113). -/
theorem instrOfFields_congr {f g : Fields} {fm : Form} (hform : formOf f.opcode = some fm)
    (hop : f.opcode = g.opcode) (hsame : SameOperands f g fm) : instrOfFields f = instrOfFields g := by
  unfold formOf at hform
  split at hform
  all_goals cases hform
  all_goals
    next hrow =>
      simp only [SameOperands] at hsame
      simp only [instrOfFields, ← hop, hrow, hsame]

/-- Words that agree under a mask agree on a field that the mask covers. -/
theorem extractLsb'_eq_of_and_eq {w w' m : Word} {lo n : Nat} (h : w &&& m = w' &&& m)
    (hm : m.extractLsb' lo n = BitVec.allOnes n) : w.extractLsb' lo n = w'.extractLsb' lo n := by
  have hfield (v : Word) : (v &&& m).extractLsb' lo n = v.extractLsb' lo n := by
    rw [BitVec.extractLsb'_and, hm, BitVec.and_allOnes]
  rw [← hfield w, h, hfield]

/-- MOVE's source depends on the X bit and on the field it selects (R140). -/
theorem moveSourceOf_congr {f g : Fields} (hx : f.xbit = g.xbit) (hrs : f.xbit = 0#1 → f.rs = g.rs)
    (himm : f.xbit = 1#1 → f.imm = g.imm) : moveSourceOf f = moveSourceOf g := by
  obtain h | h := BitVec.eq_zero_or_eq_one f.xbit
  · rw [(operands_of_xbit_zero h).2, (operands_of_xbit_zero (hx ▸ h)).2, hrs h]
  · rw [(operands_of_xbit_one h).2, (operands_of_xbit_one (hx ▸ h)).2, himm h]

/-- The third operand depends on the X bit and on the field it selects (R106). -/
theorem operand3Of_congr {f g : Fields} (hx : f.xbit = g.xbit) (hrt : f.xbit = 0#1 → f.rt = g.rt)
    (himm : f.xbit = 1#1 → f.imm = g.imm) : operand3Of f = operand3Of g := by
  obtain h | h := BitVec.eq_zero_or_eq_one f.xbit
  · rw [(operands_of_xbit_zero h).1, (operands_of_xbit_zero (hx ▸ h)).1, hrt h]
  · rw [(operands_of_xbit_one h).1, (operands_of_xbit_one (hx ▸ h)).1, himm h]

/-- The used bits of a form cover the fields its operands come from, X among them where it selects one (R109). -/
theorem sameOperands_of_and_eq {w w' : Word} {fm : Form}
    (h : w &&& (0xFF#64 ||| fm.usedBits (fieldsOf w).xbit) = w' &&& (0xFF#64 ||| fm.usedBits (fieldsOf w).xbit)) :
    SameOperands (fieldsOf w) (fieldsOf w') fm := by
  have hfield {lo n : Nat} (hm : ∀ x, (0xFF#64 ||| fm.usedBits x).extractLsb' lo n = BitVec.allOnes n) :
      w.extractLsb' lo n = w'.extractLsb' lo n := extractLsb'_eq_of_and_eq h (hm _)
  have hselected {x : BitVec 1} {lo n : Nat}
      (hm : (0xFF#64 ||| fm.usedBits x).extractLsb' lo n = BitVec.allOnes n) (hx : (fieldsOf w).xbit = x) :
      w.extractLsb' lo n = w'.extractLsb' lo n := extractLsb'_eq_of_and_eq h (hx ▸ hm)
  cases fm with
  | mov =>
    exact ⟨hfield (by decide), hfield (by decide),
      moveSourceOf_congr (hfield (by decide)) (hselected (by decide)) (hselected (by decide))⟩
  | alu3 =>
    exact ⟨hfield (by decide), hfield (by decide), hfield (by decide),
      operand3Of_congr (hfield (by decide)) (hselected (by decide)) (hselected (by decide))⟩
  | di => exact ⟨hfield (by decide), hfield (by decide)⟩
  | dsi | alu2 | bcc => exact ⟨hfield (by decide), hfield (by decide), hfield (by decide)⟩
  | mem => exact ⟨hfield (by decide), hfield (by decide), hfield (by decide), hfield (by decide)⟩
  | rel | s | d | imm => exact hfield (by decide)
  | none => trivial

/-- The opcode byte always takes part. -/
theorem opcode_eq_of_and_usedBits_eq {w w' : Word} (h : w &&& usedBits w = w' &&& usedBits w) :
    (fieldsOf w).opcode = (fieldsOf w').opcode := by
  refine extractLsb'_eq_of_and_eq h ?_
  have hlow (m : Word) : (0xFF#64 ||| m).extractLsb' 0 8 = BitVec.allOnes 8 := by
    rw [BitVec.extractLsb'_or]
    exact BitVec.allOnes_or
  unfold usedBits
  split
  · exact hlow _
  · rfl

/-- The bits that take part, for a word of a known form (R109). -/
theorem usedBits_of_form {w : Word} {fm : Form} (h : formOf (fieldsOf w).opcode = some fm) :
    usedBits w = 0xFF#64 ||| fm.usedBits (fieldsOf w).xbit := by
  have hform : formOf (w.extractLsb' 0 8) = some fm := h
  rw [usedBits, hform]
  rfl

/-- Words that agree on the bits that take part are the same instruction (R113). -/
theorem decodeWord_eq_of_and_usedBits_eq {w w' : Word} (h : w &&& usedBits w = w' &&& usedBits w) :
    decodeWord w = decodeWord w' := by
  have hop := opcode_eq_of_and_usedBits_eq h
  cases hform : formOf (fieldsOf w).opcode with
  | some fm =>
    rw [usedBits_of_form hform] at h
    exact instrOfFields_congr hform hop (sameOperands_of_and_eq h)
  | none =>
    have hnone : opcodeAssigned (fieldsOf w).opcode = false := by rw [← isSome_formOf, hform, Option.isSome_none]
    exact (instrOfFields_eq_none.mpr hnone).trans (instrOfFields_eq_none.mpr (hop ▸ hnone)).symm

/-- A run sees of the word its instruction, and its opcode where it has none. -/
theorem runWord_congr {w w' : Word} (hdec : decodeWord w = decodeWord w')
    (hop : (fieldsOf w).opcode = (fieldsOf w').opcode) (s : State) : runWord w s = runWord w' s := by
  rw [runWord, runWord, hdec, hop]

/-- Settles O3: the two words have the same opcode and the same instruction. -/
theorem unusedBitsHaveNoEffect : Obligations.UnusedBitsHaveNoEffect := by
  intro w w' h
  have hdec := decodeWord_eq_of_and_usedBits_eq h
  exact ⟨hdec.symm, fun s => (runWord_congr hdec (opcode_eq_of_and_usedBits_eq h) s).symm⟩

/-! ## Encoding and decoding -/

/-- Whatever the source of form MOV, the other fields are as given (R104, R109). -/
theorem fieldsMov_fields (op : Byte) (sz : Size) (rd : RegId) (src : MoveSource) :
    (fieldsMov op sz rd src).opcode = op ∧ (fieldsMov op sz rd src).size = codeOfSize sz ∧
      (fieldsMov op sz rd src).rd = rd := by
  cases src <;> exact ⟨rfl, rfl, rfl⟩

/-- Whatever the third operand of form ALU3, the other fields are as given (R104, R109). -/
theorem fieldsAlu3_fields (op : Byte) (sz : Size) (rd rs : RegId) (o : Operand3) :
    (fieldsAlu3 op sz rd rs o).opcode = op ∧ (fieldsAlu3 op sz rd rs o).size = codeOfSize sz ∧
      (fieldsAlu3 op sz rd rs o).rd = rd ∧ (fieldsAlu3 op sz rd rs o).rs = rs := by
  cases o <;> exact ⟨rfl, rfl, rfl, rfl⟩

/-- The canonical fields of an instruction select it again: its size code and its operand come back, and every other
field is its own (R110, R115). -/
theorem instrOfFields_fieldsOfInstr (i : Instr) : instrOfFields (fieldsOfInstr i) = some i := by
  cases i with
  | move => simp [fieldsOfInstr, instrOfFields, fieldsMov_fields, moveSourceOf_fieldsMov]
  | add | sub | mulu | muls | divu | divs | mod | and | or | eor | lsl | lsr | asr =>
    simp [fieldsOfInstr, instrOfFields, fieldsAlu3_fields, operand3Of_fieldsAlu3]
  | load | store => simp [fieldsOfInstr, instrOfFields, fieldsMem]
  | neg | not => simp [fieldsOfInstr, instrOfFields, fieldsAlu2]
  | movt | moveq | lea | bra | beq | bne | blt | bge | bgt | ble | bhi | bls | jsr | rts | push | pop | nop | halt | sei
  | cli | rti | wait => rfl

/-- Decoding undoes encoding, word by word (R103, R104). -/
theorem decodeWord_encodeWord (i : Instr) : decodeWord (encodeWord i) = some i := by
  rw [decodeWord, encodeWord, fieldsOf_wordOfFields, instrOfFields_fieldsOfInstr]

/-- Settles O1: the first 8 bytes are those of the canonical word, and decoding takes no others. -/
theorem encodeThenDecodeGivesInstruction : Obligations.EncodeThenDecodeGivesInstruction := by
  intro i rest
  have hlen : (encode i).length = 8 := length_bytesOfWord _ 8
  have htake : (encode i ++ rest).take 8 = encode i := List.take_left' hlen
  rw [decode_eq_ok, htake, encode, wordOfBytes_bytesOfWord_eight, decodeWord_encodeWord]
  exact ⟨by rw [List.length_append, length_bytesOfWord]; omega, rfl⟩

end Sys2Proof.Machine
end

section
/-! Data movement: what MOVE, MOVT, MOVEQ and LEA write into Rd (40_data_movement.md R140 to R143). -/

namespace Sys2Proof.Machine

/-- Settles O15: a masked register write, of the register or of imm32. -/
theorem moveCopiesTheMaskedSource : Obligations.MoveCopiesTheMaskedSource := by
  intro sz rd src s
  obtain ⟨t, hexec, heffect⟩ := writeMasked_spec s sz rd (moveSourceValue s src)
  refine ⟨t, _, hexec, heffect, ?_⟩
  rw [toNat_maskToSize]
  cases src with
  | reg rs => rw [moveSourceValue_reg]
  | imm k => rw [moveSourceValue_imm, toNat_zextImm]

/-- An immediate shifted into the upper half loses no bits. -/
theorem toNat_zextImm_shiftLeft (imm : Imm) : (zextImm imm <<< 32).toNat = imm.toNat <<< 32 := by
  have hupper : imm.toNat <<< 32 < 2 ^ 64 := by
    have := imm.isLt
    rw [Nat.shiftLeft_eq]
    omega
  rw [BitVec.toNat_shiftLeft, toNat_zextImm, Nat.mod_eq_of_lt hupper]

/-- The value MOVT writes: the two halves do not overlap, so their union is their sum (R141). -/
theorem toNat_upperHalf_replaced (w : Word) (imm : Imm) :
    ((w &&& 0x00000000FFFFFFFF#64) ||| (zextImm imm <<< 32)).toNat = imm.toNat * 2 ^ 32 + w.toNat % 2 ^ 32 := by
  have hlow : (w &&& 0x00000000FFFFFFFF#64).toNat = w.toNat % 2 ^ 32 := toNat_maskToSize .l w
  have hlt : w.toNat % 2 ^ 32 < 2 ^ 32 := Nat.mod_lt _ (by decide)
  rw [BitVec.toNat_or, hlow, toNat_zextImm_shiftLeft, Nat.or_comm, ← Nat.shiftLeft_add_eq_or_of_lt hlt, Nat.shiftLeft_eq]

/-- Settles O16, by the value of the two halves. -/
theorem movtReplacesTheUpperHalf : Obligations.MovtReplacesTheUpperHalf := fun rd imm s =>
  ⟨_, _, rfl, registerEffect_writeReg s rd _, toNat_upperHalf_replaced (readReg s rd) imm⟩

/-- Settles O17: sign extension keeps the signed value. -/
theorem moveqSignExtends : Obligations.MoveqSignExtends := fun rd imm s =>
  ⟨_, _, rfl, registerEffect_writeReg s rd _, toInt_sextImm imm⟩

/-- Base plus displacement is the signed sum, wrapped at 64 bits only (R143). -/
theorem displaced_eq_ofInt (s : State) (rs : RegId) (disp : Imm) :
    displaced s rs disp = BitVec.ofInt 64 ((readReg s rs).toInt + disp.toInt) := by
  rw [displaced, ← toInt_sextImm, BitVec.ofInt_add, BitVec.ofInt_toInt, BitVec.ofInt_toInt]

/-- Settles O18: LEA writes the sum as it is, without the truncation of LOAD and STORE. -/
theorem leaGivesTheFullSum : Obligations.LeaGivesTheFullSum := fun rd rs disp s =>
  ⟨_, _, rfl, registerEffect_writeReg s rd _, displaced_eq_ofInt s rs disp⟩

end Sys2Proof.Machine
end

section
/-! Load and store: the bytes LOAD puts into Rd and the bytes STORE puts into memory (41_load_store.md R150 to R153). -/

namespace Sys2Proof.Machine

/-! ## The bytes of a loaded value -/

/-- No access is wider than a register (R10). -/
theorem sizeBytes_le_eight (sz : Size) : sizeBytes sz ≤ 8 := by
  cases sz <;> decide

/-- Byte `k` of the value of a list of bytes is the list's byte `k` (R60). -/
theorem extractLsb'_wordOfBytes (bs : List Byte) {k : Nat} (hk : k < 8) :
    (wordOfBytes bs).extractLsb' (8 * k) 8 = bs.getD k 0#8 := by
  refine BitVec.eq_of_getLsbD_eq fun i hi => ?_
  have hbyte : (8 * k + i) / 8 = k := by omega
  have hbit : (8 * k + i) % 8 = i := by omega
  rw [BitVec.getLsbD_extractLsb', getLsbD_wordOfBytes _ _ (by omega), hbyte, hbit, decide_eq_true hi, Bool.true_and]

/-- The value of a list of bytes is zero above them (R13, R60). -/
theorem toNat_wordOfBytes_lt (bs : List Byte) : (wordOfBytes bs).toNat < 2 ^ (8 * bs.length) := by
  refine Nat.lt_pow_two_of_testBit _ fun i hi => ?_
  rw [BitVec.testBit_toNat]
  by_cases hword : i < 64
  · rw [getLsbD_wordOfBytes _ _ hword, List.getD_eq_default _ _ (by omega), BitVec.getLsbD_zero]
  · exact BitVec.getLsbD_of_ge _ _ (by omega)

/-- Settles O21: Rd takes the value of the bytes read, of which there are as many as the size says. -/
theorem loadReadsZeroExtended : Obligations.LoadReadsZeroExtended := by
  intro sz rd rs disp s hadm
  obtain ⟨t, hexec, heffect⟩ := exec_load_spec (rd := rd) hadm
  refine ⟨t, _, hexec, fun k hk => ?_, ?_, heffect⟩
  · have hsize := sizeBytes_le_eight sz
    rw [extractLsb'_wordOfBytes _ (by omega), getD_readBytes _ _ _ _ hk]
  · simpa using toNat_wordOfBytes_lt (readBytes s (effectiveAddr s rs disp).toNat (sizeBytes sz))

/-! ## What STORE does -/

/-- What leaves every byte and the platform alone does not disturb the effect of a write before it. -/
theorem WriteAccess.trans_sameBytes {s t u : State} {a : Addr} {n : Nat} {v : Word} (h : WriteAccess s t a n v)
    (hsame : SameBytes t u) : WriteAccess s u a n v := by
  obtain ⟨hwritten, hram, hinside, hplatform⟩ := h
  obtain ⟨hbyte, hevents⟩ := hsame
  refine ⟨fun k hk hr => (hbyte _).trans (hwritten k hk hr), fun b hb hout => (hbyte b).trans (hram b hb hout),
    fun ht => ?_, fun ht => hevents.trans (hplatform ht)⟩
  obtain ⟨hquiet, hkept⟩ := hinside ht
  exact ⟨hevents.trans hquiet, fun b hout => (hbyte b).trans (hkept b hout)⟩

/-- All that an admitted STORE does (R152). -/
theorem exec_store_spec {sz : Size} {rd rs : RegId} {disp : Imm} {s : State}
    (hadm : (effectiveAddr s rs disp).toNat + sizeBytes sz ≤ accessLimit s.parameters) :
    ∃ t, exec (.store sz rd rs disp) s = .next t ∧
      WriteAccess s t (effectiveAddr s rs disp) (sizeBytes sz) (maskToSize sz (readReg s rd)) ∧
      SameRegs s t ∧ t.pc = s.pc + 8#64 ∧ SameControl s t := by
  have hwrite := (memWrite_eq_next (v := maskToSize sz (readReg s rd))).mpr ⟨hadm, rfl⟩
  obtain ⟨hregs, hpc, hcontrol, haccess⟩ := memWrite_spec hwrite
  refine ⟨_, exec_store_eq_next.mpr ⟨_, hwrite, rfl⟩, haccess.trans_sameBytes (sameBytes_setPc ..), fun r => ?_, ?_,
    hcontrol.trans (sameControl_setPc ..)⟩
  · rw [readReg_advancePc, hregs r]
  · rw [advancePc_pc, hpc]

/-- Settles O22: the value written is the register's, masked to the size. -/
theorem storeWritesTheLowBytes : Obligations.StoreWritesTheLowBytes := by
  intro sz rd rs disp s hadm
  obtain ⟨t, hexec, heffect⟩ := exec_store_spec (rd := rd) hadm
  exact ⟨t, _, hexec, toNat_maskToSize sz (readReg s rd), heffect⟩

end Sys2Proof.Machine
end

section
/-! Arithmetic: what ADD, SUB, MULU, MULS, DIVU, DIVS, MOD and NEG, and NOT with them, write into Rd. Each operation
is a number wrapped at 64 bits, and the mask of the size keeps that number's remainder (42_arithmetic.md R160 to R168,
R184). -/

namespace Sys2Proof.Machine

/-! ## Wrapped numbers under the mask of a size -/

/-- The modulus of a size divides that of a register, so the wrap at 64 bits is lost under the mask (R10, R160). -/
theorem two_pow_size_dvd (sz : Size) : 2 ^ (8 * sizeBytes sz) ∣ 2 ^ 64 :=
  Nat.pow_dvd_pow 2 (by have := sizeBytes_le_eight sz; omega)

/-- The mask of a natural number's word is the number's remainder. -/
theorem toNat_maskToSize_ofNat (sz : Size) (n : Nat) :
    (maskToSize sz (BitVec.ofNat 64 n)).toNat = n % 2 ^ (8 * sizeBytes sz) := by
  rw [toNat_maskToSize, BitVec.toNat_ofNat, Nat.mod_mod_of_dvd _ (two_pow_size_dvd sz)]

/-- The mask of an integer's word is the integer's remainder. -/
theorem toNat_maskToSize_ofInt (sz : Size) (z : Int) :
    ((maskToSize sz (BitVec.ofInt 64 z)).toNat : Int) = z % 2 ^ (8 * sizeBytes sz) := by
  have hdvd : (2 ^ (8 * sizeBytes sz) : Int) ∣ 2 ^ 64 := by exact_mod_cast two_pow_size_dvd sz
  have hwrap : ((BitVec.ofInt 64 z).toNat : Int) = z % 2 ^ 64 := by
    rw [BitVec.toNat_ofInt]
    omega
  rw [toNat_maskToSize]
  push_cast
  rw [hwrap, Int.emod_emod_of_dvd z hdvd]

/-! ## The operations as wrapped numbers -/

/-- The sum of two words (R161). -/
theorem add_eq_ofNat (a b : Word) : a + b = BitVec.ofNat 64 (a.toNat + b.toNat) :=
  BitVec.eq_of_toNat_eq (by rw [BitVec.toNat_add, BitVec.toNat_ofNat])

/-- The difference of two words, as an integer (R162). -/
theorem sub_eq_ofInt (a b : Word) : a - b = BitVec.ofInt 64 (a.toNat - b.toNat : Int) := by
  refine BitVec.eq_of_toNat_eq ?_
  have := b.isLt
  rw [BitVec.toNat_sub, BitVec.toNat_ofInt]
  omega

/-- The two's complement of a word (R168). -/
theorem zero_sub_eq_ofNat (a : Word) : 0#64 - a = BitVec.ofNat 64 (2 ^ 64 - a.toNat) :=
  BitVec.eq_of_toNat_eq (by rw [BitVec.zero_sub, BitVec.toNat_neg, BitVec.toNat_ofNat])

/-- MULU is the product of words (R163). -/
theorem mulUnsigned_eq_mul (a b : Word) : mulUnsigned a b = a * b :=
  BitVec.eq_of_toNat_eq (by rw [mulUnsigned, BitVec.toNat_ofNat, BitVec.toNat_mul])

/-- MULS is the same product: the signs are lost in the wrap (R164). -/
theorem mulSigned_eq_mul (a b : Word) : mulSigned a b = a * b := by
  rw [mulSigned, BitVec.ofInt_mul, BitVec.ofInt_toInt, BitVec.ofInt_toInt]

/-- A result that a zero divisor replaces by 0, as one wrapped number. -/
theorem ofNat_unless_zero (b : Word) (n : Nat) :
    (if b = 0#64 then 0#64 else BitVec.ofNat 64 n) = BitVec.ofNat 64 (if b.toNat = 0 then 0 else n) := by
  have hzero : b = 0#64 ↔ b.toNat = 0 := BitVec.toNat_eq
  by_cases hb : b = 0#64
  · rw [if_pos hb, if_pos (hzero.mp hb)]
  · rw [if_neg hb, if_neg (mt hzero.mpr hb)]

/-- The unsigned quotient, by the value of the divisor (R165). -/
theorem divUnsigned_eq_ofNat (a b : Word) :
    divUnsigned a b = BitVec.ofNat 64 (if b.toNat = 0 then 0 else a.toNat / b.toNat) :=
  ofNat_unless_zero b _

/-- The unsigned remainder, by the value of the divisor (R167). -/
theorem modUnsigned_eq_ofNat (a b : Word) :
    modUnsigned a b = BitVec.ofNat 64 (if b.toNat = 0 then 0 else a.toNat % b.toNat) :=
  ofNat_unless_zero b _

/-! ## The signed quotient -/

/-- A zero divisor gives 0 (R166). -/
theorem divSigned_of_zero {overflow a b : Word} (hb : b.toInt = 0) : divSigned overflow a b = 0#64 :=
  if_pos hb

/-- The one quotient that 64 bits cannot hold is the parameter (R166, D16). -/
theorem divSigned_of_overflow {overflow a b : Word} (ha : a.toInt = -2 ^ 63) (hb : b.toInt = -1) :
    divSigned overflow a b = overflow := by
  have hne : b.toInt ≠ 0 := by omega
  rw [divSigned, if_neg hne, if_pos ⟨ha, hb⟩]

/-- Every other quotient fits into 64 bits, so its word reads back as the quotient rounded toward zero (R166, D15). -/
theorem toInt_divSigned {overflow a b : Word} (hb : b.toInt ≠ 0) (hfits : ¬(a.toInt = -2 ^ 63 ∧ b.toInt = -1)) :
    (divSigned overflow a b).toInt = a.toInt.tdiv b.toInt := by
  have hwords : a ≠ BitVec.intMin 64 ∨ b ≠ -1#64 := by
    by_contra hover
    obtain ⟨rfl, rfl⟩ : a = BitVec.intMin 64 ∧ b = -1#64 := by simpa using hover
    exact hfits (by decide)
  have hquotient : divSigned overflow a b = BitVec.ofInt 64 (a.toInt.tdiv b.toInt) :=
    (if_neg hb).trans (if_neg hfits)
  rw [hquotient, ← BitVec.toInt_sdiv_of_ne_or_ne a b hwords, BitVec.ofInt_toInt]

/-- What rounding toward zero leaves is smaller than the divisor and has the dividend's sign (D15). -/
theorem tmod_small_with_sign_of_dividend {a b : Int} (hb : b ≠ 0) :
    (a.tmod b).natAbs < b.natAbs ∧ (a.tmod b = 0 ∨ (0 < a.tmod b ↔ 0 < a)) := by
  constructor
  · rw [Int.natAbs_tmod]
    exact Nat.mod_lt _ (Int.natAbs_pos.mpr hb)
  · by_cases hdvd : b ∣ a
    · exact .inl (Int.tmod_eq_zero_of_dvd hdvd)
    · have hsign : (a.tmod b).sign = a.sign := by rw [Int.sign_tmod, if_neg hdvd]
      exact .inr (by rw [← Int.sign_eq_one_iff_pos, hsign, Int.sign_eq_one_iff_pos])

/-! ## The instructions -/

/-- A property of the masked result is a property of what a three-operand instruction writes (R160). -/
theorem threeOperand_writes {f : Word → Word → Word} {sz : Size} {rd rs : RegId} {op : Operand3} {s : State}
    {P : Word → Prop} (h : P (maskToSize sz (f (readReg s rs) (op3Value s op)))) :
    ∃ t v, threeOperand f sz rd rs op s = .next t ∧ RegisterEffect s t rd v ∧ P v := by
  obtain ⟨t, hexec, heffect⟩ := threeOperand_spec f sz rd rs op s
  exact ⟨t, _, hexec, heffect, h⟩

/-- A property of the masked result is a property of what a two-operand instruction writes (R168, R184). -/
theorem twoOperand_writes {f : Word → Word} {sz : Size} {rd rs : RegId} {s : State}
    {P : Word → Prop} (h : P (maskToSize sz (f (readReg s rs)))) :
    ∃ t v, twoOperand f sz rd rs s = .next t ∧ RegisterEffect s t rd v ∧ P v := by
  obtain ⟨t, hexec, heffect⟩ := twoOperand_spec f sz rd rs s
  exact ⟨t, _, hexec, heffect, h⟩

/-- Settles O23: sum and difference are wrapped numbers, of which the mask keeps the remainder. -/
theorem addAndSubWrapAtTheSize : Obligations.AddAndSubWrapAtTheSize := by
  intro sz rd rs op s
  constructor
  · apply threeOperand_writes
    rw [add_eq_ofNat, toNat_maskToSize_ofNat]
  · apply threeOperand_writes
    rw [sub_eq_ofInt, toNat_maskToSize_ofInt]

/-- Settles O24: both products are that of the words, before any mask. -/
theorem multiplyGivesTheLowProduct : Obligations.MultiplyGivesTheLowProduct := by
  intro sz rd rs op s
  have hsame : mulSigned = mulUnsigned := funext₂ fun a b => by rw [mulSigned_eq_mul, mulUnsigned_eq_mul]
  refine ⟨threeOperand_writes ?_, threeOperand_writes ?_, ?_⟩
  · exact toNat_maskToSize_ofNat ..
  · exact toNat_maskToSize_ofInt ..
  · exact congrArg (threeOperand · sz rd rs op s) hsame

/-- Settles O25: quotient and remainder, 0 for a zero divisor, are taken at 64 bits and then masked. -/
theorem unsignedDivisionAndRemainder : Obligations.UnsignedDivisionAndRemainder := by
  intro sz rd rs op s
  constructor
  · apply threeOperand_writes
    rw [divUnsigned_eq_ofNat, toNat_maskToSize_ofNat]
  · apply threeOperand_writes
    rw [modUnsigned_eq_ofNat, toNat_maskToSize_ofNat]

/-- Settles O26, by the three cases of the quotient; in the last the remainder is that of the rounding. -/
theorem signedDivisionRoundsTowardZero : Obligations.SignedDivisionRoundsTowardZero := by
  intro sz rd rs op s
  obtain ⟨t, hexec, heffect⟩ := threeOperand_spec (divSigned s.parameters.divsOverflow) sz rd rs op s
  refine ⟨t, _, _, hexec, heffect, toNat_maskToSize .., divSigned_of_zero, divSigned_of_overflow, fun hb hfits => ?_⟩
  refine ⟨(readReg s rs).toInt.tmod (op3Value s op).toInt, ?_, tmod_small_with_sign_of_dividend hb⟩
  rw [toInt_divSigned hb hfits, Int.tdiv_mul_add_tmod]

/-- Settles O27: NEG through the wrapped number, NOT bit by bit. -/
theorem negAndNotComplementAtTheSize : Obligations.NegAndNotComplementAtTheSize := by
  intro sz rd rs s
  constructor
  · apply twoOperand_writes
    rw [zero_sub_eq_ofNat, toNat_maskToSize_ofNat]
  · refine twoOperand_writes fun k => ?_
    have hsize := sizeBytes_le_eight sz
    rw [getLsbD_maskToSize, BitVec.getLsbD_not]
    by_cases hk : k < 8 * sizeBytes sz
    · rw [decide_eq_true (show k < 64 by omega), Bool.true_and]
    · rw [decide_eq_false hk, Bool.false_and, Bool.false_and]

end Sys2Proof.Machine
end

section
/-! Logical: what AND, OR and EOR write into Rd. Each works bit by bit at 64 bits, and the mask keeps the bits of the
size (43_logical.md R180 to R183). -/

namespace Sys2Proof.Machine

/-- A three-operand instruction that combines its sources bit by bit writes the combined bits of the size and zeros
above them (R180). -/
theorem threeOperand_bitwise {f : Word → Word → Word} {g : Bool → Bool → Bool}
    (hbits : ∀ a b k, (f a b).getLsbD k = g (a.getLsbD k) (b.getLsbD k))
    (sz : Size) (rd rs : RegId) (op : Operand3) (s : State) :
    ∃ t v, threeOperand f sz rd rs op s = .next t ∧ RegisterEffect s t rd v ∧
      ∀ k, v.getLsbD k =
        (decide (k < 8 * sizeBytes sz) && g ((readReg s rs).getLsbD k) ((op3Value s op).getLsbD k)) := by
  refine threeOperand_writes fun k => ?_
  rw [getLsbD_maskToSize, hbits]

/-- Settles O28: each operation is a Boolean connective on the bits. -/
theorem logicalOperationsAreBitwise : Obligations.LogicalOperationsAreBitwise := by
  intro sz rd rs op s
  refine ⟨?and, ?or, ?eor⟩
  case and => exact threeOperand_bitwise (g := and) (fun _ _ _ => BitVec.getLsbD_and) sz rd rs op s
  case or => exact threeOperand_bitwise (g := or) (fun _ _ _ => BitVec.getLsbD_or) sz rd rs op s
  case eor => exact threeOperand_bitwise (g := xor) (fun _ _ _ => BitVec.getLsbD_xor) sz rd rs op s

end Sys2Proof.Machine
end

section
/-! Shifts: what LSL, LSR and ASR write into Rd. The count is the third operand modulo 64 at every size; LSL and LSR
shift the 64-bit value, ASR the value read as a signed number of the size (44_shifts.md R190 to R194). -/

namespace Sys2Proof.Machine

/-! ## The shift operations as wrapped numbers -/

/-- Six bits of the operand are its remainder by 64 (R190 (a)). -/
theorem shiftCount_eq_mod (b : Word) : shiftCount b = b.toNat % 64 := by
  rw [shiftCount, BitVec.extractLsb'_toNat, Nat.shiftRight_zero]

/-- LSL multiplies by the power of the count (R191). -/
theorem shiftLeft_eq_ofNat (a b : Word) :
    shiftLeft a b = BitVec.ofNat 64 (a.toNat * 2 ^ (b.toNat % 64)) := by
  refine BitVec.eq_of_toNat_eq ?_
  rw [shiftLeft, shiftCount_eq_mod, BitVec.toNat_shiftLeft, Nat.shiftLeft_eq, BitVec.toNat_ofNat]

/-- LSR divides the unsigned 64-bit value, bits above the size included, by the power of the count (R192). -/
theorem toNat_shiftRightLogical (a b : Word) :
    (shiftRightLogical a b).toNat = a.toNat / 2 ^ (b.toNat % 64) := by
  rw [shiftRightLogical, shiftCount_eq_mod, BitVec.toNat_ushiftRight, Nat.shiftRight_eq_div_pow]

/-- Narrowing a word to `n` bits and widening it with its sign reads it as a signed `n`-bit number. -/
theorem toInt_signExtend_setWidth {n : Nat} (hn : n ≤ 64) (v : Word) :
    ((v.setWidth n).signExtend 64).toInt = Int.bmod v.toNat (2 ^ n) := by
  rw [BitVec.toInt_signExtend_of_le hn, BitVec.toInt_setWidth]

/-- ASR's source is the value read as a signed number of the size (R194). -/
theorem toInt_signExtendFromSize (sz : Size) (v : Word) :
    (signExtendFromSize sz v).toInt = Int.bmod v.toNat (2 ^ (8 * sizeBytes sz)) := by
  cases sz with
  | b => exact toInt_signExtend_setWidth (n := 8) (by decide) v
  | w => exact toInt_signExtend_setWidth (n := 16) (by decide) v
  | l => exact toInt_signExtend_setWidth (n := 32) (by decide) v
  | q => exact BitVec.toInt_eq_toNat_bmod v

/-- ASR divides that number by the power of the count; the divisor is positive, so the floor is the quotient `/`
(R193). -/
theorem shiftRightArith_eq_ofInt (sz : Size) (a b : Word) :
    shiftRightArith sz a b =
      BitVec.ofInt 64 (Int.bmod a.toNat (2 ^ (8 * sizeBytes sz)) / 2 ^ (b.toNat % 64)) := by
  rw [shiftRightArith, toInt_signExtendFromSize, shiftCount_eq_mod, Int.fdiv_eq_ediv_of_nonneg _ (Int.natCast_nonneg _),
    Nat.cast_pow, Nat.cast_ofNat]

/-! ## The instructions -/

/-- Settles O29: product and quotient by the power of the count, of which the mask keeps the remainder. -/
theorem logicalShiftsUseSixCountBits : Obligations.LogicalShiftsUseSixCountBits := by
  intro sz rd rs op s
  constructor
  · apply threeOperand_writes
    rw [shiftLeft_eq_ofNat, toNat_maskToSize_ofNat]
  · apply threeOperand_writes
    rw [toNat_maskToSize, toNat_shiftRightLogical]

/-- Settles O30, by the floored quotient, which may be negative: the mask keeps its remainder. -/
theorem arithmeticShiftFloorsAtTheSize : Obligations.ArithmeticShiftFloorsAtTheSize := by
  intro sz rd rs op s
  apply threeOperand_writes
  rw [shiftRightArith_eq_ofInt, toNat_maskToSize_ofInt]

end Sys2Proof.Machine
end

section
/-! Branches: where BRA and the eight conditional branches go. The target counts from the branch's own address, the
condition is one comparison of the two registers at all 64 bits, and only the PC changes (45_branches.md R200 to
R212). -/

namespace Sys2Proof.Machine

/-! ## The target and the conditions -/

/-- The sum of the PC and the offset, both signed, wraps at 64 bits (R200). -/
theorem branchTarget_eq_ofInt (s : State) (off : Imm) :
    branchTarget s off = BitVec.ofInt 64 (s.pc.toInt + off.toInt) := by
  rw [branchTarget, ← toInt_sextImm, BitVec.ofInt_add, BitVec.ofInt_toInt, BitVec.ofInt_toInt]

/-- BNE's comparison fails exactly when BEQ's holds (R203, R204). -/
theorem condNe_eq_not_condEq (a b : Word) : condNe a b = !condEq a b :=
  decide_not

/-- BGE's comparison fails exactly when BLT's holds (R205, R206). -/
theorem condGe_eq_not_condLt (a b : Word) : condGe a b = !condLt a b :=
  (decide_eq_decide.mpr Int.not_lt.symm).trans decide_not

/-- BGT's comparison is BLT's with the operands swapped (R207). -/
theorem condGt_eq_condLt_swap (a b : Word) : condGt a b = condLt b a :=
  rfl

/-- BLE's comparison is BGE's with the operands swapped (R208). -/
theorem condLe_eq_condGe_swap (a b : Word) : condLe a b = condGe b a :=
  rfl

/-- BLE's comparison fails exactly when BGT's holds (R207, R208). -/
theorem condLe_eq_not_condGt (a b : Word) : condLe a b = !condGt a b := by
  rw [condLe_eq_condGe_swap, condGt_eq_condLt_swap, condGe_eq_not_condLt]

/-- BLS's comparison fails exactly when BHI's holds (R209, R210). -/
theorem condLs_eq_not_condHi (a b : Word) : condLs a b = !condHi a b :=
  (decide_eq_decide.mpr Nat.not_lt.symm).trans decide_not

/-! ## Conditional branches -/

/-- A branch whose condition says `p` of its two registers goes to the target when `p`, else advances, and changes
nothing else (R200, R212). -/
theorem conditionalBranch_goes {cond : Word → Word → Bool} {rs rt : RegId} {s : State} {p : Prop} [Decidable p]
    (hcond : cond (readReg s rs) (readReg s rt) = true ↔ p) (off : Imm) :
    ∃ t, conditionalBranch cond rs rt off s = .next t ∧
      JumpEffect s t (if p then BitVec.ofInt 64 (s.pc.toInt + off.toInt) else s.pc + 8#64) := by
  obtain ⟨t, hexec, heffect⟩ := conditionalBranch_spec cond rs rt off s
  rw [if_congr hcond (branchTarget_eq_ofInt s off) rfl] at heffect
  exact ⟨t, hexec, heffect⟩

/-- A branch on the swapped comparison is the branch with its registers swapped. -/
theorem conditionalBranch_swap {cond cond' : Word → Word → Bool} (hswap : ∀ a b, cond' a b = cond b a)
    (rs rt : RegId) (off : Imm) (s : State) :
    conditionalBranch cond' rs rt off s = conditionalBranch cond rt rs off s := by
  rw [conditionalBranch, hswap, conditionalBranch]

/-- Of two branches on complementary comparisons of the same registers one goes to the target, the other advances. -/
theorem conditionalBranch_complementary {cond cond' : Word → Word → Bool} (hnot : ∀ a b, cond' a b = !cond a b)
    (rs rt : RegId) (off : Imm) (s : State) :
    ∃ t u, conditionalBranch cond rs rt off s = .next t ∧ conditionalBranch cond' rs rt off s = .next u ∧
      ((t.pc = branchTarget s off ∧ u.pc = s.pc + 8#64) ∨ (t.pc = s.pc + 8#64 ∧ u.pc = branchTarget s off)) := by
  obtain ⟨t, ht, htpc, -⟩ := conditionalBranch_spec cond rs rt off s
  obtain ⟨u, hu, hupc, -⟩ := conditionalBranch_spec cond' rs rt off s
  rw [hnot] at hupc
  refine ⟨t, u, ht, hu, ?_⟩
  cases hcond : cond (readReg s rs) (readReg s rt) with
  | true => exact .inl ⟨by simpa [hcond] using htpc, by simpa [hcond] using hupc⟩
  | false => exact .inr ⟨by simpa [hcond] using htpc, by simpa [hcond] using hupc⟩

/-! ## The instructions -/

/-- Settles O35: BGT and BLT by the swapped comparison, each pair by its complementary comparisons. -/
theorem branchPairsAreComplementary : Obligations.BranchPairsAreComplementary := by
  intro rs rt off s
  refine ⟨conditionalBranch_swap condGt_eq_condLt_swap rs rt off s, fun _ p hp => ?_⟩
  simp only [List.mem_cons, List.not_mem_nil, or_false] at hp
  obtain rfl | rfl | rfl | rfl := hp
  · exact conditionalBranch_complementary condNe_eq_not_condEq rs rt off s
  · exact conditionalBranch_complementary condGe_eq_not_condLt rs rt off s
  · exact conditionalBranch_complementary condLe_eq_not_condGt rs rt off s
  · exact conditionalBranch_complementary condLs_eq_not_condHi rs rt off s

/-- Settles O31: BRA sets the PC to the target and nothing else. -/
theorem braGoesToThePcPlusOffset : Obligations.BraGoesToThePcPlusOffset := by
  intro off s
  rw [← branchTarget_eq_ofInt]
  exact ⟨_, rfl, jumpEffect_setPc ..⟩

/-- Settles O32: BNE's target stands in the other branch of the same comparison. -/
theorem equalityBranches : Obligations.EqualityBranches := by
  intro rs rt off s
  refine ⟨conditionalBranch_goes decide_eq_true_iff off, ?_⟩
  rw [← ite_not]
  exact conditionalBranch_goes decide_eq_true_iff off

/-- Settles O33, by the signed comparison each branch decides. -/
theorem signedBranches : Obligations.SignedBranches := by
  intro rs rt off s
  refine ⟨?blt, ?bge, ?bgt, ?ble⟩
  case blt => exact conditionalBranch_goes (cond := condLt) decide_eq_true_iff off
  case bge => exact conditionalBranch_goes (cond := condGe) decide_eq_true_iff off
  case bgt => exact conditionalBranch_goes (cond := condGt) decide_eq_true_iff off
  case ble => exact conditionalBranch_goes (cond := condLe) decide_eq_true_iff off

/-- Settles O34, by the unsigned comparison each branch decides. -/
theorem unsignedBranches : Obligations.UnsignedBranches := by
  intro rs rt off s
  refine ⟨?bhi, ?bls⟩
  case bhi => exact conditionalBranch_goes (cond := condHi) decide_eq_true_iff off
  case bls => exact conditionalBranch_goes (cond := condLs) decide_eq_true_iff off

end Sys2Proof.Machine
end

section
/-! Subroutine and stack: what JSR, RTS, PUSH and POP do with an admitted slot, and that a pop returns what was pushed
to RAM (46_subroutine_stack.md R220 to R225). -/

namespace Sys2Proof.Machine

/-! ## Pushing -/

/-- SP is not R0, so a write to it is never dropped (R31, R33). -/
theorem onlyRegWritten_sp_iff {s t : State} {v : Word} :
    OnlyRegWritten s t sp v ↔ ∀ r, readReg t r = if r = sp then v else readReg s r := by
  simp only [OnlyRegWritten, ne_eq, sp_ne_zero, not_false_eq_true, and_true]

/-- All that an admitted push followed by a jump does, where the jump is reckoned from the PC: the shape JSR and PUSH
share (R221, R223). -/
theorem pushWord_setPc_spec {s : State} (value : State → Word) (target : Word → Word)
    (hadm : (stackAddr (decrementSp s)).toNat + 8 ≤ accessLimit s.parameters) :
    ∃ t, andThen (pushWord s value) (fun u => .next (setPc u (target u.pc))) = .next t ∧
      OnlyRegWritten s t sp (readReg s sp - 8#64) ∧
      WriteAccess s t (stackAddr (decrementSp s)) 8 (value (decrementSp s)) ∧ t.pc = target s.pc ∧
      SameControl s t := by
  have hpush : pushWord s value = .next _ := memWrite_eq_next.mpr ⟨by rwa [decrementSp_parameters], rfl⟩
  obtain ⟨hregs, hpc, hcontrol, -, haccess⟩ := pushWord_spec hpush
  exact ⟨_, andThen_eq_next.mpr ⟨_, hpush, rfl⟩, onlyRegWritten_sp_iff.mpr hregs,
    haccess.trans_sameBytes (sameBytes_setPc ..), congrArg target hpc, hcontrol.trans (sameControl_setPc ..)⟩

/-- Settles O36: the push of `pc + 8`, which reads the PC only, then the jump of BRA. -/
theorem jsrPushesTheReturnAddress : Obligations.JsrPushesTheReturnAddress := by
  intro off s hadm
  have h := pushWord_setPc_spec (fun u => u.pc + 8#64) (· + sextImm off) hadm
  rw [decrementSp_pc] at h
  rw [← branchTarget_eq_ofInt]
  exact h

/-- Settles O38: Rs is read after the decrement, which only SP shows. -/
theorem pushStoresAtTheNewSp : Obligations.PushStoresAtTheNewSp := by
  intro rs s hadm
  have h := pushWord_setPc_spec (readReg · rs) (· + 8#64) hadm
  rw [readReg_decrementSp] at h
  exact h

/-! ## Popping -/

/-- Byte `k` of the value that a read takes from memory is the byte at that place (R60). -/
theorem extractLsb'_wordOfBytes_readBytes (s : State) (a : Nat) {n k : Nat} (hk : k < n) (hword : k < 8) :
    (wordOfBytes (readBytes s a n)).extractLsb' (8 * k) 8 = readByte s (a + k) := by
  rw [extractLsb'_wordOfBytes _ hword, getD_readBytes _ _ _ _ hk]

/-- Settles O37: an admitted slot is read, and the rest is what popping the PC does. -/
theorem rtsPopsThePc : Obligations.RtsPopsThePc := by
  intro s hadm
  have hpop : popPc s = .next _ := andThen_eq_next.mpr ⟨_, memRead_eq_next.mpr ⟨hadm, rfl⟩, rfl⟩
  obtain ⟨hregs, hpc, hmem, hcontrol, -, haccess⟩ := popPc_spec hpop
  refine ⟨_, hpop, fun k hk => ?_, onlyRegWritten_sp_iff.mpr hregs, hcontrol, hmem, haccess⟩
  rw [hpc, extractLsb'_wordOfBytes_readBytes _ _ hk hk]

/-- Moving SP up does not disturb a write to another register. -/
theorem readReg_incrementSp_writeReg {s : State} {rd : RegId} (hrd : rd ≠ sp) (v : Word) (r : RegId) :
    readReg (incrementSp (writeReg s rd v)) r = readReg (writeReg (incrementSp s) rd v) r := by
  rw [readReg_incrementSp, readReg_writeReg_ne s v hrd.symm, readReg_writeReg, readReg_writeReg, readReg_incrementSp]
  by_cases hr : r = sp
  · simp [hr, hrd.symm]
  · simp [hr]

/-- The registers after a POP: SP moves up by 8 from what the write of Rd left in it (R224, D17). -/
theorem readReg_incrementSp_writeReg_eq (s : State) (rd : RegId) (v : Word) (r : RegId) :
    readReg (incrementSp (writeReg s rd v)) r =
      if r = 0#5 then 0#64
      else if r = sp then (if rd = sp then v + 8#64 else readReg s sp + 8#64)
      else if r = rd then v else readReg s r := by
  by_cases hzero : r = 0#5
  · rw [if_pos hzero, hzero, readReg_zero]
  rw [if_neg hzero, readReg_incrementSp]
  by_cases hsp : r = sp
  · rw [if_pos hsp, if_pos hsp]
    by_cases hrd : rd = sp
    · rw [if_pos hrd, hrd, readReg_writeReg_self s v sp_ne_zero]
    · rw [if_neg hrd, readReg_writeReg_ne s v (Ne.symm hrd)]
  · rw [if_neg hsp, if_neg hsp, readReg_writeReg]
    by_cases hrd : r = rd
    · rw [if_pos hrd, if_pos ⟨hrd, hrd ▸ hzero⟩]
    · rw [if_neg hrd, if_neg fun h => hrd h.1]

/-- Settles O39: the read of the slot, the write of Rd, then the step of SP. -/
theorem popLoadsFromSp : Obligations.PopLoadsFromSp := by
  intro rd s hadm
  obtain ⟨t, hexec, hregs, heffect⟩ := exec_pop_spec (rd := rd) hadm
  exact ⟨t, _, hexec, fun k hk => extractLsb'_wordOfBytes_readBytes s _ hk hk,
    fun r => (hregs r).trans (readReg_incrementSp_writeReg_eq s rd _ r), heffect⟩

/-! ## A pop behind a push -/

/-- The step of SP up undoes the push's step down, wherever control has gone (R220). -/
theorem sameRegs_incrementSp_of_pushWord {s u : State} {value : State → Word} (h : pushWord s value = .next u)
    (x : Word) : SameRegs s (incrementSp (setPc u x)) := by
  obtain ⟨hregs, -⟩ := pushWord_spec h
  intro r
  rw [readReg_incrementSp, readReg_setPc, readReg_setPc, hregs sp, hregs r, if_pos rfl, BitVec.sub_add_cancel]
  by_cases hr : r = sp
  · rw [if_pos hr, hr]
  · rw [if_neg hr, if_neg hr]

/-- After a push to RAM the slot at SP reads as the value pushed, wherever control has gone, and the read changes
nothing (R220, R225). -/
theorem popRead_of_pushWord {s u : State} {value : State → Word} (h : pushWord s value = .next u)
    (hram : touchesPlatform s.parameters (stackAddr (decrementSp s)).toNat 8 = false) (x : Word) :
    popRead (setPc u x) = .next (value (decrementSp s), setPc u x) := by
  obtain ⟨hregs, -, hcontrol, hadm, -⟩ := pushWord_spec h
  have hslot : stackAddr (setPc u x) = stackAddr (decrementSp s) := by
    rw [stackAddr, stackAddr, readReg_setPc, hregs sp, readReg_decrementSp]
  have hbytes : readBytes (setPc u x) (stackAddr (decrementSp s)).toNat 8 =
      readBytes u (stackAddr (decrementSp s)).toNat 8 := readBytes_congr fun _ _ => readByte_setPc ..
  have hvalue : wordOfBytes (readBytes u (stackAddr (decrementSp s)).toNat 8) = value (decrementSp s) := by
    simpa using wordOfBytes_readBytes_of_memWrite (k := 0) (n := 8) h (by rwa [decrementSp_parameters]) (Nat.le_refl 8)
  have hparameters : (setPc u x).parameters = s.parameters := hcontrol.parameters_eq
  rw [popRead, hslot, memRead_eq_next, hbytes, hvalue, hparameters, noteAccess_of_ram (hparameters ▸ hram)]
  exact ⟨hadm, rfl⟩

/-- Settles O41: the value read back is the return address, and SP is where it was. -/
theorem rtsReturnsBehindTheJsr : Obligations.RtsReturnsBehindTheJsr := by
  intro off s t hjsr hram
  obtain ⟨u, hpush, hjump⟩ := andThen_eq_next.mp hjsr
  cases hjump
  obtain ⟨-, -, hcontrol, -⟩ := pushWord_spec hpush
  have hread := popRead_of_pushWord hpush hram (branchTarget u off)
  have hpop : popPc (setPc u (branchTarget u off)) = .next _ := andThen_eq_next.mpr ⟨_, hread, rfl⟩
  refine ⟨_, hpop, ?_, sameRegs_incrementSp_of_pushWord hpush _,
    hcontrol.trans ((sameControl_setPc ..).trans (sameControl_popPc hpop))⟩
  rw [incrementSp_pc, setPc_pc, decrementSp_pc]

/-- Settles O42: Rs stands as before the decrement, so Rd takes it from the slot, and SP is where it was. -/
theorem popReturnsThePushedValue : Obligations.PopReturnsThePushedValue := by
  intro rs rd s t hexec hram hrs hrd
  obtain ⟨u, hpush, hadvance⟩ := andThen_eq_next.mp hexec
  cases hadvance
  obtain ⟨-, hpc, hcontrol, -⟩ := pushWord_spec hpush
  have hread := popRead_of_pushWord hpush hram (u.pc + 8#64)
  have hpushed : readReg (decrementSp s) rs = readReg s rs := (readReg_decrementSp s rs).trans (if_neg hrs)
  rw [hpushed] at hread
  have hpop : exec (.pop rd) (setPc u (u.pc + 8#64)) = .next _ := andThen_eq_next.mpr ⟨_, hread, rfl⟩
  refine ⟨_, hpop, fun r => ?_, ?_, ?_⟩
  · rw [readReg_advancePc, readReg_incrementSp_writeReg hrd, readReg_writeReg,
      sameRegs_incrementSp_of_pushWord hpush _ r]
  · rw [advancePc_pc, incrementSp_pc, writeReg_pc, setPc_pc, hpc, BitVec.add_assoc]
    rfl
  · exact hcontrol.trans ((sameControl_setPc ..).trans (sameControl_exec (i := .pop rd) nofun nofun nofun nofun hpop))

end Sys2Proof.Machine
end

section
/-! System instructions: what NOP, WAIT, HALT, SEI, CLI and RTI do, and that no instruction stops but on an access that
is not admitted (47_system.md R230 to R236, 60_exceptions.md R280 to R282). -/

namespace Sys2Proof.Machine

/-! ## NOP, WAIT, HALT, SEI and CLI -/

/-- Settles O43: both only set the PC. -/
theorem nopAndWaitOnlyAdvance : Obligations.NopAndWaitOnlyAdvance := fun _ s =>
  ⟨⟨_, rfl, jumpEffect_setPc s _⟩, ⟨_, rfl, jumpEffect_setPc s _⟩⟩

/-- A machine that is not running has no further step (R330, D25). -/
theorem step_of_not_running {s : State} (h : s.running = false) : step s = .fault .halted :=
  if_neg (Bool.eq_false_iff.mp h)

/-- Settles O44: HALT writes `running` alone. -/
theorem haltEndsTheRun : Obligations.HaltEndsTheRun := fun s =>
  ⟨_, rfl, rfl, rfl, fun _ => rfl, .refl s, rfl, rfl, rfl, .refl s, rfl, step_of_not_running rfl⟩

/-- All that setting `interruptEnabled` and advancing does (R232, R233). -/
theorem advancePc_interruptEnabled_spec (s : State) (b : Bool) :
    ∃ t, (.next (advancePc { s with interruptEnabled := b }) : Result) = .next t ∧ t.interruptEnabled = b ∧
      t.pc = s.pc + 8#64 ∧ SameRegs s t ∧ SameBytes s t ∧ t.inInterrupt = s.inInterrupt ∧
      t.interruptVector = s.interruptVector ∧ t.running = s.running ∧ SameTimer s t ∧ t.parameters = s.parameters :=
  ⟨_, rfl, rfl, rfl, fun _ => rfl, .refl s, rfl, rfl, rfl, .refl s, rfl⟩

/-- Settles O45: SEI and CLI differ in the value alone. -/
theorem seiEnablesAndCliDisables : Obligations.SeiEnablesAndCliDisables := fun s =>
  ⟨advancePc_interruptEnabled_spec s true, advancePc_interruptEnabled_spec s false⟩

/-! ## RTI -/

/-- RTI is RTS and the end of service (R234). -/
theorem exec_rti_of_exec_rts {s t : State} (h : exec .rts s = .next t) :
    exec .rti s = .next { t with inInterrupt := false } :=
  andThen_eq_next.mpr ⟨t, h, rfl⟩

/-- Settles O46: RTS does the pop, and RTI's control fields are its own. -/
theorem rtiPopsThePcAndEndsService : Obligations.RtiPopsThePcAndEndsService := by
  intro s hadm
  obtain ⟨t, hrts, hbytes, hregs, -, hmem, haccess⟩ := rtsPopsThePc s hadm
  have hrti := exec_rti_of_exec_rts hrts
  obtain ⟨htimer, hparameters, hvector, henabled, hcleared, hrunning⟩ := exec_rti_control hrti
  exact ⟨_, hrti, hbytes, hregs, hcleared, henabled, hvector, hrunning, htimer, hparameters, hmem,
    haccess.trans_sameBytes (.refl t)⟩

/-! ## The stops of an instruction -/

/-- The outcome is no refusal, and no fault but that of an access beyond where `p` ends memory (R71, R280). -/
def StopsOnlyBeyond {α : Type} (p : Parameters) (x : Host.Outcome α Fault Refusal) : Prop :=
  (∀ r, x ≠ .refused r) ∧
    ∀ f, x = .fault f → ∃ k a n, f = .accessBeyondMemory k a n ∧ accessLimit p < a.toNat + n

theorem stopsOnlyBeyond_next {α : Type} (p : Parameters) (a : α) : StopsOnlyBeyond p (.next a) :=
  ⟨nofun, nofun⟩

/-- What follows an access and only answers adds no stop. -/
theorem StopsOnlyBeyond.andThen_next {α β : Type} {p : Parameters} {x : Host.Outcome α Fault Refusal}
    (h : StopsOnlyBeyond p x) (g : α → β) : StopsOnlyBeyond p (andThen x fun a => .next (g a)) := by
  obtain ⟨hrefused, hfault⟩ := h
  refine ⟨fun r hr => ?_, fun f hf => ?_⟩
  · obtain hx | ⟨a, -, ha⟩ := andThen_eq_refused.mp hr
    · exact hrefused r hx
    · cases ha
  · obtain hx | ⟨a, -, ha⟩ := andThen_eq_fault.mp hf
    · exact hfault f hx
    · cases ha

theorem stopsOnlyBeyond_memRead (s : State) (a : Addr) (n : Nat) : StopsOnlyBeyond s.parameters (memRead s a n) := by
  refine ⟨memRead_not_refused s a n, fun f hf => ?_⟩
  obtain ⟨hbeyond, rfl⟩ := memRead_eq_fault.mp hf
  exact ⟨_, _, _, rfl, Nat.lt_of_not_le hbeyond⟩

theorem stopsOnlyBeyond_memWrite (s : State) (a : Addr) (n : Nat) (v : Word) :
    StopsOnlyBeyond s.parameters (memWrite s a n v) := by
  refine ⟨memWrite_not_refused s a n v, fun f hf => ?_⟩
  obtain ⟨hbeyond, rfl⟩ := memWrite_eq_fault.mp hf
  exact ⟨_, _, _, rfl, Nat.lt_of_not_le hbeyond⟩

theorem stopsOnlyBeyond_pushWord (s : State) (value : State → Word) :
    StopsOnlyBeyond s.parameters (pushWord s value) :=
  decrementSp_parameters s ▸ stopsOnlyBeyond_memWrite (decrementSp s) ..

theorem stopsOnlyBeyond_popPc (s : State) : StopsOnlyBeyond s.parameters (popPc s) :=
  (stopsOnlyBeyond_memRead ..).andThen_next _

theorem stopsOnlyBeyond_conditionalBranch (cond : Word → Word → Bool) (rs rt : RegId) (off : Imm) (s : State) :
    StopsOnlyBeyond s.parameters (conditionalBranch cond rs rt off s) := by
  obtain ⟨t, ht, -⟩ := conditionalBranch_spec cond rs rt off s
  exact ht ▸ stopsOnlyBeyond_next _ t

/-- An instruction answers, or goes through one access and only answers behind it (R280). -/
theorem stopsOnlyBeyond_exec (i : Instr) (s : State) : StopsOnlyBeyond s.parameters (exec i s) := by
  cases i with
  | move | movt | moveq | lea | add | sub | mulu | muls | divu | divs | mod | neg | and | or | eor | not | lsl | lsr
  | asr | bra | nop | halt | sei | cli | wait => exact stopsOnlyBeyond_next ..
  | beq | bne | blt | bge | bgt | ble | bhi | bls => exact stopsOnlyBeyond_conditionalBranch ..
  | load | pop => exact (stopsOnlyBeyond_memRead ..).andThen_next _
  | store => exact (stopsOnlyBeyond_memWrite ..).andThen_next _
  | jsr | push => exact (stopsOnlyBeyond_pushWord ..).andThen_next _
  | rts => exact stopsOnlyBeyond_popPc s
  | rti => exact (stopsOnlyBeyond_popPc s).andThen_next _

/-- Interrupt entry goes through the push of the PC alone (R290). -/
theorem stopsOnlyBeyond_interruptEntry (s : State) : StopsOnlyBeyond s.parameters (interruptEntry s) :=
  (stopsOnlyBeyond_pushWord { s with inInterrupt := true } _).andThen_next _

/-- A tick answers, or goes through interrupt entry (R286, R289). -/
theorem stopsOnlyBeyond_timerTick (s : State) : StopsOnlyBeyond s.parameters (timerTick s) := by
  have hcheck : ∀ t, StopsOnlyBeyond t.parameters (interruptCheck t) := fun t => by
    unfold interruptCheck
    split
    · exact stopsOnlyBeyond_interruptEntry t
    · exact stopsOnlyBeyond_next ..
  have hdecrement : ∀ t, StopsOnlyBeyond t.parameters (timerDecrement t) := fun t => by
    unfold timerDecrement
    split
    · exact stopsOnlyBeyond_next ..
    split
    · exact (hcheck _).andThen_next _
    · exact stopsOnlyBeyond_next ..
  unfold timerTick
  split
  · split
    · exact hdecrement _
    · exact stopsOnlyBeyond_next ..
  · exact stopsOnlyBeyond_next ..

theorem fetchInstr_not_refused (s : State) (r : Refusal) : fetchInstr s ≠ .refused r := by
  unfold fetchInstr
  split <;> nofun

/-- An unassigned opcode is a fault, no refusal (R112). -/
theorem runWord_not_refused (w : Word) (s : State) (r : Refusal) : runWord w s ≠ .refused r := by
  unfold runWord
  split
  · next i _ => exact (stopsOnlyBeyond_exec i s).1 r
  · nofun

/-- Neither the tick, nor the fetch, nor what is fetched is refused (R16). -/
theorem step_not_refused (s : State) (r : Refusal) : step s ≠ .refused r := by
  intro h
  unfold step at h
  split at h
  · obtain htick | ⟨s1, -, hrest⟩ := andThen_eq_refused.mp h
    · exact (stopsOnlyBeyond_timerTick s).1 r htick
    obtain hfetch | ⟨⟨w, s2⟩, -, hword⟩ := andThen_eq_refused.mp hrest
    · exact fetchInstr_not_refused s1 r hfetch
    · exact runWord_not_refused w s2 r hword
  · cases h

/-- Settles O60, by the stops of every instruction and of every part of a step. -/
theorem instructionsStopOnlyOnUnadmittedAccesses : Obligations.InstructionsStopOnlyOnUnadmittedAccesses :=
  ⟨fun i s => (stopsOnlyBeyond_exec i s).1, fun i s => (stopsOnlyBeyond_exec i s).2, step_not_refused⟩

end Sys2Proof.Machine
end

section
/-! Pseudo-instructions: what the expansions of `li`, `la` and the zero-comparison branches do (48_pseudo_and_assembler.md
R240 to R249). -/

namespace Sys2Proof.Machine

/-- An expansion of one instruction is that instruction. -/
theorem execAll_singleton (i : Instr) (s : State) : execAll [i] s = exec i s := by
  show andThen (exec i s) Host.Outcome.next = exec i s
  cases exec i s <;> rfl

/-! ## la and the zero-comparison branches -/

/-- R0 as the base leaves the displacement (R241). -/
theorem displaced_zero (s : State) (disp : Imm) : displaced s 0#5 disp = sextImm disp := by
  rw [displaced, readReg_zero, BitVec.zero_add]

/-- A branch on Rs and R0 whose comparison with 0 is `b` goes to the target when `b`, else advances (R240, R243). -/
theorem expandZeroBranch_goes {branch : RegId → RegId → Imm → Instr} {cond : Word → Word → Bool} {rs : RegId}
    {off : Imm} {s : State} {b : Bool} (hexec : exec (branch rs 0#5 off) s = conditionalBranch cond rs 0#5 off s)
    (hcond : cond (readReg s rs) 0#64 = b) :
    ∃ t, execAll (Asm.expandZeroBranch branch rs off) s = .next t ∧
      JumpEffect s t (if b = true then BitVec.ofInt 64 (s.pc.toInt + off.toInt) else s.pc + 8#64) := by
  rw [Asm.expandZeroBranch, execAll_singleton, hexec]
  exact conditionalBranch_goes (by rw [readReg_zero, hcond]) off

/-- A word is 0 exactly when its signed value is. -/
theorem condEq_zero (v : Word) : condEq v 0#64 = decide (v.toInt = 0) :=
  decide_eq_decide.mpr BitVec.toInt_inj.symm

/-- Settles O20: `la` is LEA from a base of 0; each branch compares with the 0 that R0 reads as. -/
theorem pseudoInstructionsUseR0AsZero : Obligations.PseudoInstructionsUseR0AsZero := by
  refine ⟨fun rd addr s => ⟨_, _, execAll_singleton .., registerEffect_writeReg s rd _, ?_⟩, fun rs off s p hp => ?_⟩
  · rw [displaced_zero, toInt_sextImm]
  · simp only [List.mem_cons, List.not_mem_nil, or_false] at hp
    obtain rfl | rfl | rfl | rfl | rfl | rfl := hp
    · exact expandZeroBranch_goes (cond := condEq) rfl (condEq_zero _)
    · exact expandZeroBranch_goes (cond := condNe) rfl (by rw [condNe_eq_not_condEq, condEq_zero, decide_not])
    · exact expandZeroBranch_goes (cond := condLt) rfl rfl
    · exact expandZeroBranch_goes (cond := condGe) rfl rfl
    · exact expandZeroBranch_goes (cond := condGt) rfl rfl
    · exact expandZeroBranch_goes (cond := condLe) rfl rfl

/-! ## li -/

/-- Of two writes to the same register the second stands. -/
theorem OnlyRegWritten.trans {s t u : State} {rd : RegId} {v w : Word} (h : OnlyRegWritten s t rd v)
    (k : OnlyRegWritten t u rd w) : OnlyRegWritten s u rd w := fun r => by
  rw [k r, h r]
  split <;> rfl

/-- The value of a write is of no account for R0 (R31). -/
theorem OnlyRegWritten.congr {s t : State} {rd : RegId} {v w : Word} (h : OnlyRegWritten s t rd v)
    (hvalue : rd ≠ 0#5 → v = w) : OnlyRegWritten s t rd w := fun r => by
  rw [h r]
  exact ite_congr rfl (fun hr => hvalue hr.2) fun _ => rfl

theorem OnlyRegWritten.readReg_self {s t : State} {rd : RegId} {v : Word} (h : OnlyRegWritten s t rd v)
    (hrd : rd ≠ 0#5) : readReg t rd = v :=
  (h rd).trans (if_pos ⟨rfl, hrd⟩)

/-- The low half of a word, as `li` writes it with MOVE.L (R140, R242). -/
theorem toNat_lowHalf (v : Word) : (maskToSize .l (zextImm (v.extractLsb' 0 32))).toNat = v.toNat % 2 ^ 32 := by
  rw [toNat_maskToSize, toNat_zextImm, BitVec.extractLsb'_toNat, Nat.shiftRight_zero]
  exact Nat.mod_mod ..

/-- The high half above the low half is the word again (R141, R242). -/
theorem halves_eq (v : Word) :
    (maskToSize .l (zextImm (v.extractLsb' 0 32)) &&& 0x00000000FFFFFFFF#64) |||
      (zextImm (v.extractLsb' 32 32) <<< 32) = v := by
  refine BitVec.eq_of_toNat_eq ?_
  rw [toNat_upperHalf_replaced, toNat_lowHalf, BitVec.extractLsb'_toNat, Nat.shiftRight_eq_div_pow]
  omega

/-- MOVE.L of the low half (R140). -/
theorem exec_move_lowHalf_spec (rd : RegId) (v : Word) (s : State) :
    ∃ t, exec (.move .l rd (.imm (v.extractLsb' 0 32))) s = .next t ∧
      RegisterEffect s t rd (maskToSize .l (zextImm (v.extractLsb' 0 32))) :=
  writeMasked_spec ..

/-- `li` of a value of 32 bits (R242). -/
theorem expandLi_of_le {v : Word} (h : v.toNat ≤ 0xFFFFFFFF) (rd : RegId) :
    Asm.expandLi rd v = [.move .l rd (.imm (v.extractLsb' 0 32))] :=
  if_pos h

/-- `li` of any other value (R242). -/
theorem expandLi_of_not_le {v : Word} (h : ¬ v.toNat ≤ 0xFFFFFFFF) (rd : RegId) :
    Asm.expandLi rd v = [.move .l rd (.imm (v.extractLsb' 0 32)), .movt rd (v.extractLsb' 32 32)] :=
  if_neg h

/-- The form of the expansion, its halves as remainder and quotient (R242). -/
theorem expandLi_eq (rd : RegId) (v : Word) :
    Asm.expandLi rd v =
      if v.toNat ≤ 0xFFFFFFFF then [.move .l rd (.imm (BitVec.ofNat 32 v.toNat))]
      else [.move .l rd (.imm (BitVec.ofNat 32 v.toNat)), .movt rd (BitVec.ofNat 32 (v.toNat / 2 ^ 32))] := by
  have hhigh : v.extractLsb' 32 32 = BitVec.ofNat 32 (v.toNat / 2 ^ 32) := by
    rw [← Nat.shiftRight_eq_div_pow]
    rfl
  rw [Asm.expandLi, hhigh]
  rfl

/-- Settles O19: the low half is the value when it has 32 bits; otherwise MOVT puts the high half above it. -/
theorem liLoadsTheConstant : Obligations.LiLoadsTheConstant := by
  intro rd v s
  refine ⟨expandLi_eq rd v, ?_⟩
  obtain ⟨t, hmove, hwritten, hpc, hcontrol, hbytes⟩ := exec_move_lowHalf_spec rd v s
  by_cases hv : v.toNat ≤ 0xFFFFFFFF
  · have hvalue : maskToSize .l (zextImm (v.extractLsb' 0 32)) = v :=
      BitVec.eq_of_toNat_eq ((toNat_lowHalf v).trans (Nat.mod_eq_of_lt (Nat.lt_succ_of_le hv)))
    rw [expandLi_of_le hv, execAll_singleton]
    exact ⟨t, hmove, hvalue ▸ hwritten, hpc, hcontrol, hbytes⟩
  · obtain ⟨hwritten', hpc', hcontrol', hbytes'⟩ := registerEffect_writeReg t rd
      ((readReg t rd &&& 0x00000000FFFFFFFF#64) ||| (zextImm (v.extractLsb' 32 32) <<< 32))
    rw [expandLi_of_not_le hv]
    refine ⟨_, andThen_eq_next.mpr ⟨t, hmove, execAll_singleton ..⟩, ?_, ?_, hcontrol.trans hcontrol',
      hbytes.trans hbytes'⟩
    · exact (hwritten.trans hwritten').congr fun hrd => by rw [hwritten.readReg_self hrd, halves_eq]
    · rw [hpc', hpc, BitVec.add_assoc]
      rfl

end Sys2Proof.Machine
end

section
/-! The timer and its interrupt: each way a tick goes as one equation, runs of ticks up to an expiry, entry and return,
and the machine whose timer is off (60_exceptions.md R283 to R297). -/

namespace Sys2Proof.Machine

/-! ## One tick -/

/-- A timer that is off does not move (R286, D19). -/
theorem timerTick_of_off {s : State} (hoff : s.timerEnabled = false) : timerTick s = .next s :=
  timerTick_eq_next.mpr (.inl ⟨hoff, rfl⟩)

/-- Below the rate only the cycle counter moves (R286 step 1). -/
theorem timerTick_of_below {s : State} (hon : s.timerEnabled = true) (hbelow : s.cycleCounter + 1 < 44100) :
    timerTick s = .next { s with cycleCounter := s.cycleCounter + 1 } :=
  timerTick_eq_next.mpr (.inr (.inl ⟨hon, hbelow, rfl⟩))

/-- At the rate a count above 1 is decremented (R286 step 2). -/
theorem timerTick_of_count {s : State} (hon : s.timerEnabled = true) (hrate : 44100 ≤ s.cycleCounter + 1)
    (hcount : 1 < s.timerCount.toNat) :
    timerTick s = .next { s with cycleCounter := 0, timerCount := s.timerCount - 1#64 } := by
  have hne : s.timerCount ≠ 0#64 := by bv_omega
  have hne' : s.timerCount - 1#64 ≠ 0#64 := by bv_omega
  exact timerTick_eq_next.mpr (.inr (.inr (.inr (.inl ⟨hon, hrate, hne, hne', rfl⟩))))

/-- At the rate a count found 0 is restarted from the period (R286 step 4, D21). -/
theorem timerTick_of_zero {s : State} (hon : s.timerEnabled = true) (hrate : 44100 ≤ s.cycleCounter + 1)
    (hcount : s.timerCount = 0#64) : timerTick s = .next (timerRestart { s with cycleCounter := 0 }) :=
  timerTick_eq_next.mpr (.inr (.inr (.inl ⟨hon, hrate, hcount, rfl⟩)))

/-- The state in which an expiry makes its interrupt check (R286 step 3). -/
def expiring (s : State) : State :=
  { s with cycleCounter := 0, timerCount := s.timerCount - 1#64, timerState := Config.timerExpired }

/-- At the rate a count of 1 expires: the check, then the reload (R286 step 3). -/
theorem timerTick_of_expiry {s t : State} (hon : s.timerEnabled = true) (hrate : 44100 ≤ s.cycleCounter + 1)
    (hcount : s.timerCount = 1#64) (hcheck : interruptCheck (expiring s) = .next t) :
    timerTick s = .next (reloadCount t) := by
  have hne : s.timerCount ≠ 0#64 := by rw [hcount]; decide
  have hzero : s.timerCount - 1#64 = 0#64 := by rw [hcount]; decide
  exact timerTick_eq_next.mpr (.inr (.inr (.inr (.inr ⟨hon, hrate, hne, hzero, t, hcheck, rfl⟩))))

theorem reloadCount_of_on {s : State} (hon : s.timerEnabled = true) :
    reloadCount s = { s with timerCount := s.timerPeriod } :=
  if_pos hon

/-- Settles O49: the decrement, and the two restarts that the period tells apart. -/
theorem tickAtTheRateWithoutExpiry : Obligations.TickAtTheRateWithoutExpiry := by
  intro s hon hrate
  refine ⟨timerTick_of_count hon hrate, fun hcount hperiod => ?_, fun hcount hperiod => ?_⟩
  · rw [timerTick_of_zero hon hrate hcount, timerRestart, if_neg hperiod]
  · rw [timerTick_of_zero hon hrate hcount, timerRestart, if_pos hperiod]

/-- Interrupts are disabled or one is in service: no expiry is taken (R289, R292). -/
def Blocked (s : State) : Prop :=
  s.interruptEnabled = false ∨ s.inInterrupt = true

/-- A blocked check changes nothing (R289, R292). -/
theorem interruptCheck_of_blocked {s : State} (h : Blocked s) : interruptCheck s = .next s := by
  refine interruptCheck_eq_next.mpr (.inr ⟨?_, rfl⟩)
  rintro ⟨henabled, hidle⟩
  obtain hdisabled | hservice := h
  · exact Bool.false_ne_true (hdisabled.symm.trans henabled)
  · exact Bool.false_ne_true (hidle.symm.trans hservice)

/-- Settles O50: the check is blocked, and the reload follows it. -/
theorem blockedExpiryIsDropped : Obligations.BlockedExpiryIsDropped := by
  intro s hon hrate hcount hblocked
  have hcheck : interruptCheck (expiring s) = .next (expiring s) := interruptCheck_of_blocked hblocked
  rw [timerTick_of_expiry hon hrate hcount hcheck, reloadCount_of_on (s := expiring s) hon]
  rfl

/-- A blocked tick answers and writes no field but these three of the timer. -/
theorem timerTick_of_blocked {s : State} (hblocked : Blocked s) :
    ∃ state count cycles, timerTick s =
      .next { s with timerState := state, timerCount := count, cycleCounter := cycles } := by
  obtain hon | hoff := Bool.eq_false_or_eq_true s.timerEnabled
  · obtain hbelow | hrate := Nat.lt_or_ge (s.cycleCounter + 1) 44100
    · exact ⟨_, _, _, timerTick_of_below hon hbelow⟩
    obtain ⟨hdecrement, hreload, hstay⟩ := tickAtTheRateWithoutExpiry s hon hrate
    by_cases hzero : s.timerCount = 0#64
    · by_cases hperiod : s.timerPeriod = 0#64
      · exact ⟨_, _, _, hstay hzero hperiod⟩
      · exact ⟨_, _, _, hreload hzero hperiod⟩
    by_cases hone : s.timerCount = 1#64
    · exact ⟨_, _, _, blockedExpiryIsDropped s hon hrate hone hblocked⟩
    · exact ⟨_, _, _, hdecrement (by bv_omega)⟩
  · exact ⟨_, _, _, timerTick_of_off hoff⟩

/-- Settles O52: being in service blocks the tick. -/
theorem interruptsDoNotNest : Obligations.InterruptsDoNotNest := by
  intro s hservice
  obtain ⟨_, _, _, htick⟩ := timerTick_of_blocked (.inr hservice)
  exact ⟨_, htick, hservice, rfl, fun _ => rfl, .refl s, rfl, rfl, rfl, rfl, rfl, rfl⟩

/-! ## Entering the interrupt and returning from it -/

/-- The slot of a push depends on the registers alone (R67, R220). -/
theorem stackAddr_decrementSp_congr {s t : State} (h : t.regs = s.regs) :
    stackAddr (decrementSp t) = stackAddr (decrementSp s) := by
  simp only [stackAddr, readReg_decrementSp, readReg_congr h]

/-- Interrupt entry answers when the slot of the saved PC is admitted (R71, R290). -/
theorem interruptEntry_of_admitted {s : State}
    (hadm : (stackAddr (decrementSp s)).toNat + 8 ≤ accessLimit s.parameters) : ∃ t, interruptEntry s = .next t := by
  cases h : interruptEntry s with
  | next t => exact ⟨t, rfl⟩
  | fault f => exact absurd hadm (interruptEntry_eq_fault.mp h).1
  | refused r => exact absurd h ((stopsOnlyBeyond_interruptEntry s).1 r)

/-- Settles O51: the entry from the expiring timer, whose slot and PC are those before the tick, then the reload. -/
theorem expiryEntersTheInterrupt : Obligations.ExpiryEntersTheInterrupt := by
  intro s hon hrate hcount henabled hidle hadm
  have hslot : stackAddr (decrementSp (expiring s)) = stackAddr (decrementSp s) := stackAddr_decrementSp_congr rfl
  obtain ⟨t, hentry⟩ := interruptEntry_of_admitted (s := expiring s) (by rwa [hslot])
  have hcheck := (interruptCheck_eq_next (s := expiring s)).mpr (.inl ⟨henabled, hidle, hentry⟩)
  obtain ⟨hservice, henabled', hvector, hrunning, ⟨hon', hstate, -, hperiod, hcycles⟩, hparameters, hpc, hregs, -,
    haccess⟩ := interruptEntry_spec hentry
  rw [hslot] at haccess
  refine ⟨_, timerTick_of_expiry hon hrate hcount hcheck, ?_⟩
  rw [reloadCount_of_on (hon'.trans hon)]
  exact ⟨hpc, hservice, henabled'.trans henabled, hvector, hrunning, onlyRegWritten_sp_iff.mpr hregs,
    haccess.trans_sameBytes (.refl t), hcycles, hstate, hperiod, hperiod, hon'.trans hon, hparameters⟩

/-- Settles O53: the value read back is the PC that the entry pushed, and SP is where it was. -/
theorem rtiResumesTheInterruptedProgram : Obligations.RtiResumesTheInterruptedProgram := by
  intro s t hentry hram
  obtain ⟨-, henabled, hvector, hrunning, htimer, hparameters, -⟩ := interruptEntry_spec hentry
  obtain ⟨u, hpush, hjump⟩ := andThen_eq_next.mp hentry
  cases hjump
  have hread := popRead_of_pushWord hpush (by rwa [stackAddr_decrementSp_inInterrupt]) u.interruptVector
  have hrts : exec .rts (setPc u u.interruptVector) = .next _ := andThen_eq_next.mpr ⟨_, hread, rfl⟩
  have hrti := exec_rti_of_exec_rts hrts
  obtain ⟨htimer', hparameters', hvector', henabled', hcleared, hrunning'⟩ := exec_rti_control hrti
  refine ⟨_, hrti, ?_, sameRegs_incrementSp_of_pushWord hpush _, hcleared, henabled'.trans henabled,
    hvector'.trans hvector, hrunning'.trans hrunning, htimer.trans htimer', hparameters'.trans hparameters⟩
  rw [incrementSp_pc, setPc_pc, decrementSp_pc]

/-! ## Runs of ticks -/

/-- Ticks in a row fall into two runs. -/
theorem ticks_add (m n : Nat) (s : State) : ticks (m + n) s = andThen (ticks m s) (ticks n) := by
  induction m generalizing s with
  | zero => rw [Nat.zero_add, ticks, andThen_next]
  | succ m ih =>
    rw [Nat.succ_add, ticks, ticks]
    cases timerTick s with
    | next t => exact ih t
    | fault | refused => rfl

/-- Settles O48, by induction on the number of ticks. -/
theorem ticksBelowTheRateOnlyCount : Obligations.TicksBelowTheRateOnlyCount := by
  intro k
  induction k with
  | zero => exact fun s _ _ => rfl
  | succ k ih =>
    intro s hon hbelow
    rw [ticks, timerTick_of_below hon (by omega), andThen_next,
      ih { s with cycleCounter := s.cycleCounter + 1 } hon (by dsimp only; omega)]
    simp only [Nat.add_assoc, Nat.add_comm 1 k]

/-- A whole round from a counter of 0 counts up to the rate, and its last tick reaches it (R287 (a)). -/
theorem ticks_round {s : State} (hon : s.timerEnabled = true) (hstart : s.cycleCounter = 0) :
    ticks 44100 s = timerTick { s with cycleCounter := 44099 } := by
  have hcount := ticksBelowTheRateOnlyCount 44099 s hon (by omega)
  rw [hstart, Nat.zero_add] at hcount
  rw [show 44100 = 44099 + 1 from rfl, ticks_add, hcount, andThen_next, ticks]
  cases timerTick { s with cycleCounter := 44099 } <;> rfl

/-- A count of `n + 1` expires at the end of round `n + 1`: every round before it decrements (R287). -/
theorem ticks_to_blocked_expiry (n : Nat) {s : State} (hon : s.timerEnabled = true) (hstart : s.cycleCounter = 0)
    (hcount : s.timerCount.toNat = n + 1) (hblocked : Blocked s) :
    ticks ((n + 1) * 44100) s =
      .next { s with cycleCounter := 0, timerCount := s.timerPeriod, timerState := Config.timerExpired } := by
  induction n generalizing s with
  | zero =>
    rw [Nat.zero_add, Nat.one_mul, ticks_round hon hstart]
    exact blockedExpiryIsDropped _ hon (Nat.le_refl _) (BitVec.eq_of_toNat_eq hcount) hblocked
  | succ n ih =>
    have htick := timerTick_of_count (s := { s with cycleCounter := 44099 }) hon (Nat.le_refl _)
      (by dsimp only; omega)
    rw [Nat.succ_mul, Nat.add_comm, ticks_add, ticks_round hon hstart, htick, andThen_next]
    exact ih hon rfl (by dsimp only; bv_omega) hblocked

/-- Settles O54: a count that is not 0 is some `n + 1`, and the counter is 0 before and after. -/
theorem timerExpiresAfterItsCount : Obligations.TimerExpiresAfterItsCount := by
  intro s hon hstart hcount hblocked
  obtain ⟨n, hn⟩ : ∃ n, s.timerCount.toNat = n + 1 := Nat.exists_eq_add_one.mpr (by bv_omega)
  rw [hn, ticks_to_blocked_expiry n hon hstart hn hblocked, hstart]

/-! ## A machine whose timer is off -/

/-- With the timer off a step leaves the timer fields alone: no tick moves them and no instruction writes them
(R236, R297). -/
theorem sameTimer_step_of_off {s t : State} (hoff : s.timerEnabled = false) (h : step s = .next t) : SameTimer s t := by
  obtain ⟨-, s1, w, s2, i, htick, hfetch, -, hexec⟩ := step_eq_next.mp h
  rw [timerTick_of_off hoff] at htick
  cases htick
  obtain ⟨-, -, -, -, -, -, -, hfetched, -⟩ := fetchInstr_frame hfetch
  obtain ⟨hexecuted, -⟩ := controlStateHasItsOwnInstructions i s2 t hexec
  exact hfetched.trans hexecuted

/-- So does a run (R297). -/
theorem sameTimer_of_reaches {s t : State} (h : Reaches s t) (hoff : s.timerEnabled = false) : SameTimer s t := by
  induction h with
  | refl s => exact .refl s
  | step hstep _ ih =>
    have hfirst := sameTimer_step_of_off hoff hstep
    exact hfirst.trans (ih (hfirst.1.trans hoff))

/-- Settles O47: the timer is still off in every state reached, so its tick changes nothing. -/
theorem timerOffMeansNoInterrupt : Obligations.TimerOffMeansNoInterrupt := by
  intro s t hoff hreach
  have hsame := sameTimer_of_reaches hreach hoff
  have htick := timerTick_of_off (hsame.1.trans hoff)
  refine ⟨hsame, htick, fun hrun => ?_⟩
  rw [step, if_pos hrun, htick, andThen_next]

end Sys2Proof.Machine
end
